-- ==== Sys2Proof/Word.lean ====
section
/-! DEFINITION. Word: the bit-vector types of the block and the two checksum seeds. The notation of spec/00_scope.md
section 7.1 is Lean's own on bit vectors: `a XOR b` is `a ^^^ b`, `NOT_N(a)` is `~~~a`, the logical `a >> k` is `a >>> k`,
`v[hi:lo]` is `v.extractLsb' lo (hi - lo + 1)`, `zext_N` and `trunc_N` are `setWidth N`. -/

namespace Sys2Proof

/-- A byte is 8 bits (R21). -/
abbrev Byte := BitVec 8

/-- `CMD_WIDTH = 40` (R8, R33): one command word. -/
abbrev CmdWord := BitVec 40

/-- `CP_WIDTH = 21` (R8, R75): the code point operand of `PUTC`. -/
abbrev CodePoint := BitVec 21

/-- R48: the running value of C16 before the first byte of every message. -/
abbrev seed16 : BitVec 16 := 0xFFFF#16

/-- R61: the running value of C32 before the first byte of every message. -/
abbrev seed32 : BitVec 32 := 0xFFFFFFFF#32

end Sys2Proof
end

