-- ==== Sys2Proof/Machine/Crc.lean ====
section
/-! DEFINITION. Crc: the two checksum algorithms (R45 to R47 of spec/40_crc16.md, R58 to R60 of spec/41_crc32.md). Both have the
shape of `crcByte`; each unit's constant and seed are fixed (R4), written once in `step16`, `step32` and the seeds. -/

namespace Sys2Proof.Machine

/-- One of the 8 iterations (R45, R58): the test of bit 0 is made before the shift, and the shift is logical. -/
def crcBit {w : Nat} (poly c : BitVec w) : BitVec w :=
  if c.getLsbD 0 then (c >>> 1) ^^^ poly else c >>> 1

/-- `n` iterations. -/
def crcBits {w : Nat} (poly : BitVec w) : Nat → BitVec w → BitVec w
  | 0, c => c
  | n + 1, c => crcBits poly n (crcBit poly c)

/-- R45, R58: the byte goes into bits 7:0, then 8 iterations. -/
def crcByte {w : Nat} (poly c : BitVec w) (b : Byte) : BitVec w := crcBits poly 8 (c ^^^ b.setWidth w)

/-- R45: the one-byte update of C16. -/
def step16 (c : BitVec 16) (b : Byte) : BitVec 16 := crcByte 0x8408#16 c b

/-- R58: the one-byte update of C32. -/
def step32 (c : BitVec 32) (b : Byte) : BitVec 32 := crcByte 0xEDB88320#32 c b

/-- R46: the running value of a message from a start value. -/
def run16 : BitVec 16 → List Byte → BitVec 16
  | c, [] => c
  | c, b :: s => run16 (step16 c b) s

/-- R59: the running value of a message from a start value. -/
def run32 : BitVec 32 → List Byte → BitVec 32
  | c, [] => c
  | c, b :: s => run32 (step32 c b) s

/-- R47: the final value of a message. -/
def fin16 (s : List Byte) : BitVec 16 := ~~~(run16 seed16 s)

/-- R60: the final value of a message. -/
def fin32 (s : List Byte) : BitVec 32 := ~~~(run32 seed32 s)

/-- R53 (d): the table of the table form. -/
def table16 (i : Byte) : BitVec 16 := step16 0#16 i

/-- R65 (d): the table of the table form. -/
def table32 (i : Byte) : BitVec 32 := step32 0#32 i

end Sys2Proof.Machine
end

