-- ==== Sys2Proof/Config.lean ====
section
/-! DEFINITION. Config: the two parameters of rule R8 (spec/00_scope.md) that change what a command or a reset does, each
with the value the spec takes. The widths of rule R8 are the widths of the types in Sys2Proof/Word.lean and
Sys2Proof/Syntax.lean. By rule R4 nothing about a checksum (constant, seed, bit order, final complement) is a parameter, so
nothing of it stands here. The spec leaves the result of no command open, so there is no free value. -/

namespace Sys2Proof.Config

/-- R8 `PUTC_NONASCII`: what `PUTC` does for a code point of 0x80 or more (R75, decisions D21 and D22). -/
inductive PutcNonascii where
  /-- raise `Fault(NONASCII)` -/
  | fault
  /-- emit bits 7:0 of the code point -/
  | truncateLow8
  deriving DecidableEq, Repr

/-- R8 `RESET_CRC_STATE`: what reset leaves in `crc16` and `crc32` (R12, decision D8). -/
inductive ResetCrcState where
  /-- no value: the register is `unwritten` -/
  | unwritten
  /-- both seeds -/
  | seeded
  deriving DecidableEq, Repr

/-- The value the spec takes (R8, R75; notes/assumptions/6.md). -/
def putcNonascii : PutcNonascii := .fault

/-- The value the spec takes (R8, R12; notes/assumptions/5.md). -/
def resetCrcState : ResetCrcState := .unwritten

end Sys2Proof.Config
end

