-- ==== Sys2Proof/Syntax.lean ====
section
/-! DEFINITION. Syntax: the eleven commands of rule R32 (spec/30_encoding.md), one constructor per row of spec/opcode_table.json.
An operand's type has exactly the operand's width, so "a value that does not fit the operand's width cannot be written"
(R34): every term of `Instr` is well formed. The operands a host writes down before they are fitted to a width are checked
in Sys2Proof/WellFormed.lean. -/

namespace Sys2Proof

/-- R32: the commands of CSB. -/
inductive Instr where
  /-- `C16INIT`, R49 -/
  | c16init
  /-- `C16UPD b`, R50 -/
  | c16upd (b : BitVec 8)
  /-- `C16RD`, R51 -/
  | c16rd
  /-- `C16CHK t`, R52 -/
  | c16chk (t : BitVec 16)
  /-- `C32INIT`, R62 -/
  | c32init
  /-- `C32UPD b`, R63 -/
  | c32upd (b : BitVec 8)
  /-- `C32RD`, R64 -/
  | c32rd
  /-- `PUT8 v`, R72 -/
  | put8 (v : BitVec 8)
  /-- `PUT16 v`, R73 -/
  | put16 (v : BitVec 16)
  /-- `PUT32 v`, R74 -/
  | put32 (v : BitVec 32)
  /-- `PUTC cp`, R75 -/
  | putc (cp : BitVec 21)
  deriving DecidableEq, Repr

/-- R1: the three units of the block. -/
inductive CsbUnit where
  | c16
  | c32
  | ser
  deriving DecidableEq, Repr

/-- The unit a command belongs to (R32). -/
def Instr.unit : Instr → CsbUnit
  | .c16init => .c16
  | .c16upd _ => .c16
  | .c16rd => .c16
  | .c16chk _ => .c16
  | .c32init => .c32
  | .c32upd _ => .c32
  | .c32rd => .c32
  | .put8 _ => .ser
  | .put16 _ => .ser
  | .put32 _ => .ser
  | .putc _ => .ser

/-- How many bytes a command that does not fault appends to the output stream (R26). -/
def Instr.emitWidth : Instr → Nat
  | .c16init => 0
  | .c16upd _ => 0
  | .c16rd => 0
  | .c16chk _ => 0
  | .c32init => 0
  | .c32upd _ => 0
  | .c32rd => 0
  | .put8 _ => 1
  | .put16 _ => 2
  | .put32 _ => 4
  | .putc _ => 1

end Sys2Proof
end

