-- ==== Sys2Proof/Decode.lean ====
section
/-! DEFINITION. Decode: the command word (R33), the opcode map (R35), total decoding (R42) with illegal words rejected by name
(R36, R37), the encoder (R42), and the host's numbering of a table word. -/

namespace Sys2Proof

/-- R33: bits 39 to 32. -/
def opField (w : CmdWord) : BitVec 8 := w.extractLsb' 32 8

/-- R33: bits 31 to 0. -/
def argField (w : CmdWord) : BitVec 32 := w.extractLsb' 0 32

/-- One row of R35: `word AND mask = pattern` says that the word is the row's command, whose operand is the named bits of the
word (R34). -/
structure Row where
  pattern : CmdWord
  mask : CmdWord
  command : CmdWord → Instr

/-- R35: a word is the command of a row if and only if `w AND mask = match`. -/
def Row.holds (r : Row) (w : CmdWord) : Bool := w &&& r.mask == r.pattern

/-- R35: the opcode map, in the table's order. -/
def opcodeMap : List Row :=
  [ ⟨0x1000000000#40, 0xFFFFFFFFFF#40, fun _ => .c16init⟩,
    ⟨0x1100000000#40, 0xFFFFFFFF00#40, fun w => .c16upd (w.extractLsb' 0 8)⟩,
    ⟨0x1200000000#40, 0xFFFFFFFFFF#40, fun _ => .c16rd⟩,
    ⟨0x1300000000#40, 0xFFFFFF0000#40, fun w => .c16chk (w.extractLsb' 0 16)⟩,
    ⟨0x2000000000#40, 0xFFFFFFFFFF#40, fun _ => .c32init⟩,
    ⟨0x2100000000#40, 0xFFFFFFFF00#40, fun w => .c32upd (w.extractLsb' 0 8)⟩,
    ⟨0x2200000000#40, 0xFFFFFFFFFF#40, fun _ => .c32rd⟩,
    ⟨0x3100000000#40, 0xFFFFFFFF00#40, fun w => .put8 (w.extractLsb' 0 8)⟩,
    ⟨0x3200000000#40, 0xFFFFFF0000#40, fun w => .put16 (w.extractLsb' 0 16)⟩,
    ⟨0x3400000000#40, 0xFF00000000#40, fun w => .put32 (w.extractLsb' 0 32)⟩,
    ⟨0x3800000000#40, 0xFFFFE00000#40, fun w => .putc (w.extractLsb' 0 21)⟩ ]

/-- R33, R35: the eleven assigned values of `op`. -/
def assignedOps : List (BitVec 8) :=
  [0x10#8, 0x11#8, 0x12#8, 0x13#8, 0x20#8, 0x21#8, 0x22#8, 0x31#8, 0x32#8, 0x34#8, 0x38#8]

/-- Why a word is no command. The block records neither (R82: "the code only"). -/
inductive IllegalWord where
  /-- R36: the operation code is assigned and a bit that must be 0 is 1. -/
  | mustBeZeroBitSet
  /-- R37: the operation code is not one of the eleven. -/
  | unassignedOp
  deriving DecidableEq, Repr

/-- R42: `command or illegal`. -/
inductive Decoded where
  | command (i : Instr)
  | illegal (why : IllegalWord)
  deriving DecidableEq, Repr

/-- The name under which a word that matches no row is rejected (R36, R37). -/
def illegalWord (w : CmdWord) : IllegalWord :=
  if opField w ∈ assignedOps then .mustBeZeroBitSet else .unassignedOp

/-- R42: if exactly one row holds, that row's command; otherwise illegal. -/
def decode (w : CmdWord) : Decoded :=
  match opcodeMap.filter (fun r => r.holds w) with
  | [r] => .command (r.command w)
  | _ => .illegal (illegalWord w)

/-- R33: a word from its operation code and its argument field, `op << 32` plus the argument. -/
def cmdWord (op : BitVec 8) (arg : BitVec 32) : CmdWord := op ++ arg

/-- R42: "`op << 32` plus the operand in its bits, the must-be-zero bits 0", the operation codes of R35. -/
def encode : Instr → CmdWord
  | .c16init => cmdWord 0x10#8 0#32
  | .c16upd b => cmdWord 0x11#8 (b.setWidth 32)
  | .c16rd => cmdWord 0x12#8 0#32
  | .c16chk t => cmdWord 0x13#8 (t.setWidth 32)
  | .c32init => cmdWord 0x20#8 0#32
  | .c32upd b => cmdWord 0x21#8 (b.setWidth 32)
  | .c32rd => cmdWord 0x22#8 0#32
  | .put8 v => cmdWord 0x31#8 (v.setWidth 32)
  | .put16 v => cmdWord 0x32#8 (v.setWidth 32)
  | .put32 v => cmdWord 0x34#8 v
  | .putc cp => cmdWord 0x38#8 (cp.setWidth 32)

/-- The command word whose bits are the low `nbits` bits of the number `w`, bit 0 the least significant, as
spec/opcode_table.json numbers them; every bit above `nbits` is 0. -/
def tableWord (nbits w : Nat) : CmdWord := BitVec.ofNat 40 (w % 2 ^ nbits)

/-- What the decoder reads from the instruction whose bits are `w` (notes/assumptions/7.md). A number with a bit at place 40
or above is no command word (R38: every command is 40 bits). -/
def decodeTableWord (nbits w : Nat) : Option Instr :=
  if w % 2 ^ nbits < 2 ^ 40 then
    match decode (tableWord nbits w) with
    | .command i => some i
    | .illegal _ => none
  else none

end Sys2Proof
end

