-- ==== Sys2Proof/Machine/State.lean ====
section
/-! DEFINITION. State: the four items of rule R10 (spec/10_state.md), the two fields the model adds to run a list of host
events and to keep the responses, the reset state (R12, R94), and the reasons a step could stop. -/

namespace Sys2Proof.Machine

/-- R82: the fault codes, the values of `flt`. -/
inductive FaultCode where
  /-- code 1: the word matches no row of the opcode map (R36, R37) -/
  | illegalCmd
  /-- code 2: `crc16` is unwritten when a command needs its value (R50 to R52) -/
  | uninit16
  /-- code 3: `crc32` is unwritten when a command needs its value (R63, R64) -/
  | uninit32
  /-- code 4: `PUTC` with a code point of 0x80 or more (R75) -/
  | nonAscii
  deriving DecidableEq, Repr

/-- R82: the numbers of the codes. -/
def FaultCode.number : FaultCode → Nat
  | .illegalCmd => 1
  | .uninit16 => 2
  | .uninit32 => 3
  | .nonAscii => 4

/-- R40: what a command answers. -/
inductive Response where
  | none
  | r16 (v : BitVec 16)
  | r32 (v : BitVec 32)
  /-- 1 = match -/
  | r1 (m : BitVec 1)
  deriving DecidableEq, Repr

/-- R103: what the host can send: one 40-bit command word, or the reset event. -/
inductive HostEvent where
  | command (w : CmdWord)
  | reset
  deriving DecidableEq, Repr

/-- R10: the whole state of CSB, and the two fields of the model's own that a run needs. -/
structure State where
  /-- R11: the running value of the CRC-16; `none` is `unwritten` (R12) -/
  crc16 : Option (BitVec 16)
  /-- R13: the running value of the CRC-32; `none` is `unwritten` (R12) -/
  crc32 : Option (BitVec 32)
  /-- R15: the first fault since reset -/
  flt : Option FaultCode
  /-- R16: every byte emitted since reset, in order of emission -/
  out : List Byte
  /-- MODEL's own (DESIGN CHOICE, notes/assumptions/1.md): what the host has yet to send, the next first -/
  pending : List HostEvent
  /-- MODEL's own (DESIGN CHOICE, notes/assumptions/2.md): the responses delivered to the host, oldest first -/
  responses : List Response
  deriving DecidableEq, Repr

/-- Why a step stops. No rule stops the block: a fault of the block is recorded in `flt` and the next command is accepted
(R84, R85), and with nothing issued the block does nothing (R7). So there is no reason, nobody raises one, and no step
answers a fault (notes/assumptions/14.md). -/
inductive Fault where
  deriving DecidableEq, Repr

/-- Why a step is refused. -/
inductive Refusal where
  /-- An arm of exec without a meaning would raise it, and no arm does: every command has its meaning. Safe. -/
  | notModelled (mnemonic : String)
  deriving DecidableEq, Repr

/-- R12, R94 under either value of the parameter `RESET_CRC_STATE` (R8). -/
def State.resetWith : Config.ResetCrcState → State
  | .unwritten =>
    { crc16 := none, crc32 := none, flt := none, out := [], pending := [], responses := [] }
  | .seeded =>
    { crc16 := some seed16, crc32 := some seed32, flt := none, out := [], pending := [], responses := [] }

/-- R12, R94: the state after reset, under the value of `RESET_CRC_STATE` the spec takes. The host has nothing pending and has
received no response (DESIGN CHOICE, notes/assumptions/1.md and 2.md). -/
def State.reset : State := State.resetWith Config.resetCrcState

end Sys2Proof.Machine
end

