-- ==== Sys2Proof/Machine/Flags.lean ====
section
/-! DEFINITION. Flags: the block's one flag, `flt` (R15), and the one-bit verdict of `C16CHK`, which is a response and no flag
(R15, R52). There are no condition codes. -/

namespace Sys2Proof.Machine

/-- R85: `flt` is not `none`. -/
def State.faulted (s : State) : Bool := s.flt.isSome

/-- R52: all 16 bits of the complement of the running value against the trailer; 1 = match. -/
def trailerVerdict (c t : BitVec 16) : BitVec 1 := if ~~~c = t then 1#1 else 0#1

end Sys2Proof.Machine
end

