-- ==== Sys2Proof/Machine/Operands.lean ====
section
/-! DEFINITION. Operands: little-endian encoding (R69) and its inverse `LEval` (spec/00_scope.md section 7.1), the presentation of
a signed integer (R70), and the trailer read as a number (R52). The fields of a command word are taken by Sys2Proof/Decode.lean. -/

namespace Sys2Proof.Machine

/-- R69: `LE(n, v)`: byte k is `v[8k+7 : 8k]`, byte 0 first. -/
def le (n : Nat) {w : Nat} (v : BitVec w) : List Byte :=
  (List.range n).map fun k => v.extractLsb' (8 * k) 8

/-- `LEval(s)`: the number `sum over k of s[k] * 2^(8k)`. -/
def leVal : List Byte → Nat
  | [] => 0
  | b :: s => b.toNat + 256 * leVal s

/-- R70: the signed integers of a width of n bytes. -/
abbrev signedInRange (n : Nat) (x : Int) : Prop := -2 ^ (8 * n - 1) ≤ x ∧ x ≤ 2 ^ (8 * n - 1) - 1

/-- R70: a signed integer x of n bytes is presented as `x mod 2^(8n)` (two's complement; the spec marks it as general
knowledge, G1: notes/assumptions/16.md). -/
def presentSigned (n : Nat) (x : Int) : BitVec (8 * n) := BitVec.ofInt (8 * n) x

/-- R52: the two trailer bytes as a number, the first low. -/
def trailer16 (q0 q1 : Byte) : BitVec 16 := q1 ++ q0

end Sys2Proof.Machine
end

