-- ==== Sys2Proof/Machine/Ops.lean ====
section
/-! DEFINITION. Ops: the named operations the meanings are made of. A fault is taken in one place (`State.raiseFault`, R84) and
left in one place (`State.hostReset`, R94: "there is no return from a fault", R89). -/

namespace Sys2Proof.Machine

/-- R40: the command's response is delivered. -/
def State.respond (r : Response) (s : State) : State := { s with responses := s.responses ++ [r] }

/-- R84: `raise Fault(code)`: the code is recorded, nothing else changes, the response is `none`. -/
def State.raiseFault (code : FaultCode) (s : State) : State :=
  { s with flt := some code, responses := s.responses ++ [.none] }

/-- R94: the reset event: all state of the block takes its value after reset. What the host has yet to send and the responses
it has received are the host's and stay (notes/assumptions/4.md). It gives no response (R103). -/
def State.hostReset (s : State) : State :=
  { State.reset with pending := s.pending, responses := s.responses }

/-- R85: an ignored word changes nothing, and its response is `none`. -/
def State.ignoreWord (s : State) : State := s.respond .none

/-- R85, R87 (1): while `flt` is set the command is ignored; otherwise it has its effect. -/
def State.unlessFaulted (effect : State → State) (s : State) : State :=
  if s.faulted then s.ignoreWord else effect s

/-- The test of R50 to R52: a command that needs the value of `crc16` faults when it is unwritten. -/
def State.withCrc16 (use : BitVec 16 → State → State) (s : State) : State :=
  match s.crc16 with
  | none => s.raiseFault .uninit16
  | some c => use c s

/-- The test of R63 and R64: a command that needs the value of `crc32` faults when it is unwritten. -/
def State.withCrc32 (use : BitVec 32 → State → State) (s : State) : State :=
  match s.crc32 with
  | none => s.raiseFault .uninit32
  | some c => use c s

/-- `crc16 <- v`. -/
def State.setCrc16 (v : BitVec 16) (s : State) : State := { s with crc16 := some v }

/-- `crc32 <- v`. -/
def State.setCrc32 (v : BitVec 32) (s : State) : State := { s with crc32 := some v }

/-- `Emit(n, v)`: the bytes `LE(n, v)` are appended at the end of `out` (R21; spec/00_scope.md section 7.3). -/
def State.emit (n : Nat) {w : Nat} (v : BitVec w) (s : State) : State := { s with out := s.out ++ le n v }

/-- R75: a text character, under either value of the parameter `PUTC_NONASCII` (R8). -/
def State.emitChar (nonascii : Config.PutcNonascii) (cp : CodePoint) (s : State) : State :=
  if cp.toNat ≤ 0x7F then (s.emit 1 (cp.extractLsb' 0 8)).respond .none
  else match nonascii with
    | .fault => s.raiseFault .nonAscii
    | .truncateLow8 => (s.emit 1 (cp.extractLsb' 0 8)).respond .none

/-- R21: the byte of the output stream at an index; `none` at and past its end, where there is no byte. -/
def State.outByte (s : State) (a : Nat) : Option Byte := s.out[a]?

end Sys2Proof.Machine
end

