-- ==== Sys2Proof/Machine/C16.lean ====
section
/-! DEFINITION. C16: the meanings of `C16INIT`, `C16UPD`, `C16RD` and `C16CHK` (spec/40_crc16.md section 3). -/

namespace Sys2Proof.Machine

/-- R49. -/
def execC16init (s : State) : Host.Outcome State Fault Refusal :=
  .next (s.unlessFaulted fun s => (s.setCrc16 seed16).respond .none)

/-- R50. -/
def execC16upd (b : BitVec 8) (s : State) : Host.Outcome State Fault Refusal :=
  .next (s.unlessFaulted (State.withCrc16 fun c s => (s.setCrc16 (step16 c b)).respond .none))

/-- R51: the complement is formed on the way out and is not written back. -/
def execC16rd (s : State) : Host.Outcome State Fault Refusal :=
  .next (s.unlessFaulted (State.withCrc16 fun c s => s.respond (.r16 (~~~c))))

/-- R52, R93: a mismatch is a response, not a fault. -/
def execC16chk (t : BitVec 16) (s : State) : Host.Outcome State Fault Refusal :=
  .next (s.unlessFaulted (State.withCrc16 fun c s => s.respond (.r1 (trailerVerdict c t))))

end Sys2Proof.Machine
end

