-- ==== Sys2Proof/Machine/C32.lean ====
section
/-! DEFINITION. C32: the meanings of `C32INIT`, `C32UPD` and `C32RD` (spec/41_crc32.md section 3). -/

namespace Sys2Proof.Machine

/-- R62. -/
def execC32init (s : State) : Host.Outcome State Fault Refusal :=
  .next (s.unlessFaulted fun s => (s.setCrc32 seed32).respond .none)

/-- R63. -/
def execC32upd (b : BitVec 8) (s : State) : Host.Outcome State Fault Refusal :=
  .next (s.unlessFaulted (State.withCrc32 fun c s => (s.setCrc32 (step32 c b)).respond .none))

/-- R64: the complement is formed on the way out and is not written back. -/
def execC32rd (s : State) : Host.Outcome State Fault Refusal :=
  .next (s.unlessFaulted (State.withCrc32 fun c s => s.respond (.r32 (~~~c))))

end Sys2Proof.Machine
end

