-- ==== Sys2Proof/Machine/Ser.lean ====
section
/-! DEFINITION. Ser: the meanings of `PUT8`, `PUT16`, `PUT32` and `PUTC` (spec/42_serializer.md section 2). -/

namespace Sys2Proof.Machine

/-- R72. -/
def execPut8 (v : BitVec 8) (s : State) : Host.Outcome State Fault Refusal :=
  .next (s.unlessFaulted fun s => (s.emit 1 v).respond .none)

/-- R73. -/
def execPut16 (v : BitVec 16) (s : State) : Host.Outcome State Fault Refusal :=
  .next (s.unlessFaulted fun s => (s.emit 2 v).respond .none)

/-- R74. -/
def execPut32 (v : BitVec 32) (s : State) : Host.Outcome State Fault Refusal :=
  .next (s.unlessFaulted fun s => (s.emit 4 v).respond .none)

/-- R75, under the value of `PUTC_NONASCII` the spec takes. -/
def execPutc (cp : BitVec 21) (s : State) : Host.Outcome State Fault Refusal :=
  .next (s.unlessFaulted (State.emitChar Config.putcNonascii cp))

end Sys2Proof.Machine
end

