-- ==== Sys2Proof/Machine/Dispatch.lean ====
section
/-! DEFINITION. Dispatch: one arm per command, one meaning per arm. -/

namespace Sys2Proof.Machine

def exec (i : Instr) (s : State) : Host.Outcome State Fault Refusal :=
  match i with
  | .c16init => Sys2Proof.Machine.execC16init s
  | .c16upd b => Sys2Proof.Machine.execC16upd b s
  | .c16rd => Sys2Proof.Machine.execC16rd s
  | .c16chk t => Sys2Proof.Machine.execC16chk t s
  | .c32init => Sys2Proof.Machine.execC32init s
  | .c32upd b => Sys2Proof.Machine.execC32upd b s
  | .c32rd => Sys2Proof.Machine.execC32rd s
  | .put8 v => Sys2Proof.Machine.execPut8 v s
  | .put16 v => Sys2Proof.Machine.execPut16 v s
  | .put32 v => Sys2Proof.Machine.execPut32 v s
  | .putc cp => Sys2Proof.Machine.execPutc cp s

end Sys2Proof.Machine
end

