-- ==== Sys2Proof/Machine/Issue.lean ====
section
/-! DEFINITION. Issue: what one event of the host does (R103 of spec/70_reset_and_hazards.md): a command word, taken through the
checks of R87 in their order, or the reset event. -/

namespace Sys2Proof.Machine

/-- R87: (1) with `flt` set the word is ignored and is not even decoded; (2) it is decoded, and if illegal it raises
`ILLEGAL_CMD`; (3) the command's own test and effect. -/
def issueWord (w : CmdWord) (s : State) : Host.Outcome State Fault Refusal :=
  if s.faulted then .next s.ignoreWord
  else match decode w with
    | .illegal _ => .next (s.raiseFault .illegalCmd)
    | .command i => exec i s

/-- R103: the two moves of the host. -/
def hostEvent (e : HostEvent) (s : State) : Host.Outcome State Fault Refusal :=
  match e with
  | .reset => .next s.hostReset
  | .command w => issueWord w s

/-- The host's next event, taken off its list. With nothing left the run is over (R102) and the block, which changes state
only when something is issued (R7), stays as it is (DEDUCED, notes/assumptions/3.md). -/
def hostStep (s : State) : Host.Outcome State Fault Refusal :=
  match s.pending with
  | [] => .next s
  | e :: rest => hostEvent e { s with pending := rest }

/-- The state in which the host sends the command word `w` next, before what it already had to send. -/
def State.sendNext (w : CmdWord) (s : State) : State := { s with pending := .command w :: s.pending }

end Sys2Proof.Machine
end

