-- ==== Sys2Proof/Machine/Step.lean ====
section
/-! DEFINITION. Step: one step of a run (R102 of spec/70_reset_and_hazards.md), and the host's way to place one command word
where the next step takes it. -/

namespace Sys2Proof.Machine

def step (s : State) : Host.Outcome State Fault Refusal := hostStep s

/-- The command word with these bits is what the host sends next (notes/assumptions/1.md and 7.md): the block fetches from no
memory (R20, R31), its commands come from the host's list. -/
def State.withFetchWord (s : State) (nbits w : Nat) : State := s.sendNext (tableWord nbits w)

end Sys2Proof.Machine
end

