-- ==== Sys2Proof/WellFormed.lean ====
section
/-! DEFINITION. WellFormed: a command as a host writes it (R39, spec/30_encoding.md), whose operand is a number of no fixed width,
and the check that says when it is a command of the block: "the assembler, not the block, rejects an operand outside these
ranges" (R39); a value outside the range of its width is refused, never reduced (R71, decision D19). Every term of `Instr`
is well formed by its type (R34), so the check stands here, one level above it. -/

namespace Sys2Proof

/-- A command as written in R39: the mnemonic and a number. -/
inductive Source where
  | c16init
  | c16upd (b : Int)
  | c16rd
  | c16chk (t : Int)
  | c32init
  | c32upd (b : Int)
  | c32rd
  | put8 (v : Int)
  | put16 (v : Int)
  | put32 (v : Int)
  | putc (cp : Int)
  deriving DecidableEq, Repr

/-- R39's table of operand ranges. -/
def Source.wellFormed : Source → Bool
  | .c16init => true
  | .c16upd b => decide (0 ≤ b ∧ b ≤ 255)
  | .c16rd => true
  | .c16chk t => decide (0 ≤ t ∧ t ≤ 65535)
  | .c32init => true
  | .c32upd b => decide (0 ≤ b ∧ b ≤ 255)
  | .c32rd => true
  | .put8 v => decide (-128 ≤ v ∧ v ≤ 255)
  | .put16 v => decide (-32768 ≤ v ∧ v ≤ 65535)
  | .put32 v => decide (-2147483648 ≤ v ∧ v ≤ 4294967295)
  | .putc cp => decide (0 ≤ cp ∧ cp ≤ 0x1FFFFF)

end Sys2Proof
end

