-- ==== Sys2Proof/Machine/Assembler.lean ====
section
/-! DEFINITION. Assembler: what stands between what a host writes and the command words it sends (rules R39 and R41 of
spec/30_encoding.md): operands fitted to their width, the nine pseudo-commands, and the line form. "The block never sees a
pseudo-command" (R41), and nothing in the machine depends on this file. -/

namespace Sys2Proof.Machine

/-- R39: a written command is a command when its operand is in range; a negative operand of n bytes is assembled as
`v + 2^(8n)`; an operand out of range is rejected, never reduced (R71). -/
def assemble (c : Source) : Option Instr :=
  if c.wellFormed then
    some (match c with
      | .c16init => .c16init
      | .c16upd b => .c16upd (BitVec.ofInt 8 b)
      | .c16rd => .c16rd
      | .c16chk t => .c16chk (BitVec.ofInt 16 t)
      | .c32init => .c32init
      | .c32upd b => .c32upd (BitVec.ofInt 8 b)
      | .c32rd => .c32rd
      | .put8 v => .put8 (BitVec.ofInt 8 v)
      | .put16 v => .put16 (BitVec.ofInt 16 v)
      | .put32 v => .put32 (BitVec.ofInt 32 v)
      | .putc cp => .putc (BitVec.ofInt 21 cp))
  else none

/-- The value of a list of optional values when each has one. -/
def allSome {α : Type} : List (Option α) → Option (List α)
  | [] => some []
  | none :: _ => none
  | some a :: rest => (allSome rest).map (a :: ·)

/-- R41: the nine pseudo-commands. The text of `PUTSTR` is given by the code points of its characters (R80). -/
inductive Pseudo where
  | c16bytes (bs : List Int)
  | c32bytes (bs : List Int)
  | c16sum (bs : List Int)
  | c32sum (bs : List Int)
  | putbytes (bs : List Int)
  | putarr8 (vs : List Int)
  | putarr16 (vs : List Int)
  | putarr32 (vs : List Int)
  | putstr (cs : List Int)
  deriving DecidableEq, Repr

/-- R41: the expansions, elements left to right. -/
def Pseudo.expand : Pseudo → List Source
  | .c16bytes bs => bs.map .c16upd
  | .c32bytes bs => bs.map .c32upd
  | .c16sum bs => [.c16init] ++ bs.map .c16upd ++ [.c16rd]
  | .c32sum bs => [.c32init] ++ bs.map .c32upd ++ [.c32rd]
  | .putbytes bs => bs.map .put8
  | .putarr8 vs => vs.map .put8
  | .putarr16 vs => vs.map .put16
  | .putarr32 vs => vs.map .put32
  | .putstr cs => cs.map .putc

/-- A program as a host writes it, or nothing when one of its commands is rejected. -/
def assembleAll (cs : List Source) : Option (List Instr) := allSome (cs.map assemble)

/-! ### The line form of R39

A line is read as characters. A character between single quotes and a text between double quotes are taken whole, so a
`;` inside them starts no comment; words are separated by one or more spaces; hexadecimal digits may be of either case
(DESIGN CHOICE, notes/assumptions/11.md). -/

/-- What a line is made of. -/
inductive Token where
  | word (cs : List Char)
  | char (c : Char)
  | text (cs : List Char)
  deriving DecidableEq, Repr

/-- Where a reader stands in a line. Characters read so far are kept latest first. -/
inductive LexMode where
  | gap
  | word (seen : List Char)
  | quoteOpen
  | quoteClose (c : Char)
  | text (seen : List Char)
  deriving DecidableEq, Repr

/-- The tokens of a line, or nothing when a quote is left open. A `;` ends the line. -/
def lexFrom : LexMode → List Char → Option (List Token)
  | .gap, [] => some []
  | .word seen, [] => some [.word seen.reverse]
  | .quoteOpen, [] => none
  | .quoteClose _, [] => none
  | .text _, [] => none
  | .gap, c :: cs =>
    if c = ' ' then lexFrom .gap cs
    else if c = ';' then some []
    else if c.toNat = 39 then lexFrom .quoteOpen cs
    else if c.toNat = 34 then lexFrom (.text []) cs
    else lexFrom (.word [c]) cs
  | .word seen, c :: cs =>
    if c = ' ' then (lexFrom .gap cs).map (.word seen.reverse :: ·)
    else if c = ';' then some [.word seen.reverse]
    else lexFrom (.word (c :: seen)) cs
  | .quoteOpen, c :: cs => lexFrom (.quoteClose c) cs
  | .quoteClose q, c :: cs => if c.toNat = 39 then (lexFrom .gap cs).map (.char q :: ·) else none
  | .text seen, c :: cs =>
    if c.toNat = 34 then (lexFrom .gap cs).map (.text seen.reverse :: ·) else lexFrom (.text (c :: seen)) cs

/-- The value of a digit in a base up to 16. -/
def digitValue (base : Nat) (c : Char) : Option Nat :=
  let n := c.toNat
  let v := if 48 ≤ n ∧ n ≤ 57 then n - 48
    else if 65 ≤ n ∧ n ≤ 70 then n - 55
    else if 97 ≤ n ∧ n ≤ 102 then n - 87
    else base
  if v < base then some v else none

/-- The value of digits in a base, the most significant first. -/
def digitsFrom (base : Nat) : Nat → List Char → Option Nat
  | acc, [] => some acc
  | acc, c :: cs =>
    match digitValue base c with
    | none => none
    | some d => digitsFrom base (base * acc + d) cs

/-- R39: decimal, or hexadecimal with `0x`; at least one digit. -/
def readNat : List Char → Option Nat
  | [] => none
  | '0' :: 'x' :: [] => none
  | '0' :: 'x' :: cs => digitsFrom 16 0 cs
  | cs => digitsFrom 10 0 cs

/-- An operand of the commands that take no minus sign. -/
def readUnsigned : Token → Option Int
  | .word cs => (readNat cs).map Int.ofNat
  | .char _ => none
  | .text _ => none

/-- R39: an operand of `PUT8`, `PUT16`, `PUT32` may be written with a minus sign. -/
def readSigned : Token → Option Int
  | .word ('-' :: cs) => (readNat cs).map fun n => -Int.ofNat n
  | t => readUnsigned t

/-- R39: an operand of `PUTC` is a number, or a character between single quotes, meaning its code point. -/
def readCodePoint : Token → Option Int
  | .char c => some (Int.ofNat c.toNat)
  | t => readUnsigned t

/-- The one operand of a command. -/
def oneOperand (read : Token → Option Int) : List Token → Option Int
  | [t] => read t
  | _ => none

/-- No operand. -/
def noOperand (c : Source) : List Token → Option (List Source)
  | [] => some [c]
  | _ => none

/-- The operands of a pseudo-command, of which there may be none (R41). -/
def operands (read : Token → Option Int) (ts : List Token) : Option (List Int) := allSome (ts.map read)

/-- The characters of the text of `PUTSTR`. -/
def textOperand : List Token → Option (List Int)
  | [.text cs] => some (cs.map fun c => Int.ofNat c.toNat)
  | _ => none

/-- What a line's mnemonic makes of its operands: the commands of R32 and the pseudo-commands of R41. -/
def lineForms : List (List Char × (List Token → Option (List Source))) :=
  [ (['C', '1', '6', 'I', 'N', 'I', 'T'], noOperand .c16init),
    (['C', '1', '6', 'U', 'P', 'D'], fun ts => (oneOperand readUnsigned ts).map fun b => [.c16upd b]),
    (['C', '1', '6', 'R', 'D'], noOperand .c16rd),
    (['C', '1', '6', 'C', 'H', 'K'], fun ts => (oneOperand readUnsigned ts).map fun t => [.c16chk t]),
    (['C', '3', '2', 'I', 'N', 'I', 'T'], noOperand .c32init),
    (['C', '3', '2', 'U', 'P', 'D'], fun ts => (oneOperand readUnsigned ts).map fun b => [.c32upd b]),
    (['C', '3', '2', 'R', 'D'], noOperand .c32rd),
    (['P', 'U', 'T', '8'], fun ts => (oneOperand readSigned ts).map fun v => [.put8 v]),
    (['P', 'U', 'T', '1', '6'], fun ts => (oneOperand readSigned ts).map fun v => [.put16 v]),
    (['P', 'U', 'T', '3', '2'], fun ts => (oneOperand readSigned ts).map fun v => [.put32 v]),
    (['P', 'U', 'T', 'C'], fun ts => (oneOperand readCodePoint ts).map fun cp => [.putc cp]) ] ++
  [ (['C', '1', '6', 'B', 'Y', 'T', 'E', 'S'], fun ts => (operands readUnsigned ts).map fun bs => (Pseudo.c16bytes bs).expand),
    (['C', '3', '2', 'B', 'Y', 'T', 'E', 'S'], fun ts => (operands readUnsigned ts).map fun bs => (Pseudo.c32bytes bs).expand),
    (['C', '1', '6', 'S', 'U', 'M'], fun ts => (operands readUnsigned ts).map fun bs => (Pseudo.c16sum bs).expand),
    (['C', '3', '2', 'S', 'U', 'M'], fun ts => (operands readUnsigned ts).map fun bs => (Pseudo.c32sum bs).expand),
    (['P', 'U', 'T', 'B', 'Y', 'T', 'E', 'S'], fun ts => (operands readSigned ts).map fun bs => (Pseudo.putbytes bs).expand),
    (['P', 'U', 'T', 'A', 'R', 'R', '8'], fun ts => (operands readSigned ts).map fun vs => (Pseudo.putarr8 vs).expand),
    (['P', 'U', 'T', 'A', 'R', 'R', '1', '6'], fun ts => (operands readSigned ts).map fun vs => (Pseudo.putarr16 vs).expand),
    (['P', 'U', 'T', 'A', 'R', 'R', '3', '2'], fun ts => (operands readSigned ts).map fun vs => (Pseudo.putarr32 vs).expand),
    (['P', 'U', 'T', 'S', 'T', 'R'], fun ts => (textOperand ts).map fun cs => (Pseudo.putstr cs).expand) ]

/-- The commands a line stands for, or nothing when it is no line of R39 and R41. An empty line stands for none. -/
def readLine (line : List Char) : Option (List Source) :=
  match lexFrom .gap line with
  | some [] => some []
  | some (.word m :: ts) =>
    match lineForms.find? fun f => f.1 = m with
    | some f => f.2 ts
    | none => none
  | _ => none

/-- R39: one command a line. The text is assembled when every line is and every operand is in range. -/
def assembleText (lines : List (List Char)) : Option (List Instr) :=
  (allSome (lines.map readLine)).bind fun css => assembleAll css.flatten

end Sys2Proof.Machine
end

