-- ==== Sys2Proof/Machine/HostContract.lean ====
section
/-! DEFINITION. HostContract: the command sequences the host owes the block (R55 of spec/40_crc16.md, R67 of spec/41_crc32.md,
R76, R77 and R80 of spec/42_serializer.md), as lists of commands. The block knows none of them. -/

namespace Sys2Proof.Machine

/-- The events of a list of commands, in order. -/
def send (is : List Instr) : List HostEvent := is.map fun i => .command (encode i)

/-- R55: the admitted payload lengths of an install code. -/
def payloadLengths : List Nat := [6, 8, 12, 16]

/-- R55: an install code is a payload of an admitted length and the two trailer bytes that hold its final value. -/
abbrev installCodeValid (payload : List Byte) (q0 q1 : Byte) : Prop :=
  payload.length ∈ payloadLengths ∧ leVal [q0, q1] = (fin16 payload).toNat

/-- R55: the host's check of an install code. -/
def checkInstallCode (payload : List Byte) (q0 q1 : Byte) : List Instr :=
  [.c16init] ++ payload.map .c16upd ++ [.c16chk (trailer16 q0 q1)]

/-- The CRC-16 of a whole message (R41 `C16SUM`). -/
def checksum16 (message : List Byte) : List Instr := [.c16init] ++ message.map .c16upd ++ [.c16rd]

/-- The CRC-32 of a whole message (R41 `C32SUM`); R67: the host's checksum of a record. -/
def checksum32 (message : List Byte) : List Instr := [.c32init] ++ message.map .c32upd ++ [.c32rd]

/-- R67: the message is checksummed first; the checksum field goes out before the bytes it covers. -/
def recordWithChecksum (message : List Byte) : List Instr :=
  checksum32 message ++ [.put32 (fin32 message)] ++ message.map .put8

/-- R22: the message of C16 after a list of commands: the bytes since the last `C16INIT`, `none` when there was none. -/
def message16 : Option (List Byte) → List Instr → Option (List Byte)
  | m, [] => m
  | _, .c16init :: is => message16 (some []) is
  | m, .c16upd b :: is => message16 (m.map (· ++ [b])) is
  | m, .c16rd :: is => message16 m is
  | m, .c16chk _ :: is => message16 m is
  | m, .c32init :: is => message16 m is
  | m, .c32upd _ :: is => message16 m is
  | m, .c32rd :: is => message16 m is
  | m, .put8 _ :: is => message16 m is
  | m, .put16 _ :: is => message16 m is
  | m, .put32 _ :: is => message16 m is
  | m, .putc _ :: is => message16 m is

/-- R22: the message of C32 after a list of commands. -/
def message32 : Option (List Byte) → List Instr → Option (List Byte)
  | m, [] => m
  | _, .c32init :: is => message32 (some []) is
  | m, .c32upd b :: is => message32 (m.map (· ++ [b])) is
  | m, .c32rd :: is => message32 m is
  | m, .c16init :: is => message32 m is
  | m, .c16upd _ :: is => message32 m is
  | m, .c16rd :: is => message32 m is
  | m, .c16chk _ :: is => message32 m is
  | m, .put8 _ :: is => message32 m is
  | m, .put16 _ :: is => message32 m is
  | m, .put32 _ :: is => message32 m is
  | m, .putc _ :: is => message32 m is

/-- R69, R75: the bytes a command that does not fault emits. -/
def emitted : Instr → List Byte
  | .c16init => []
  | .c16upd _ => []
  | .c16rd => []
  | .c16chk _ => []
  | .c32init => []
  | .c32upd _ => []
  | .c32rd => []
  | .put8 v => le 1 v
  | .put16 v => le 2 v
  | .put32 v => le 4 v
  | .putc cp => le 1 (cp.extractLsb' 0 8)

end Sys2Proof.Machine
end

