-- ==== Sys2Proof/Safety.lean ====
section
/-! DEFINITION. Safety: what claims about a run are stated in: a run to the exhaustion of the host's list and its good end
(R102 of spec/70_reset_and_hazards.md), a command's own test (R82, R87), and the invariant that a recorded UNINIT fault means
an unwritten register. -/

namespace Sys2Proof.Machine

/-- R102: the run has ended: the host's list is exhausted. -/
abbrev Ended (s : State) : Prop := s.pending = []

/-- R102: "a run ended well when `flt = none`". -/
abbrev EndedWell (s : State) : Prop := Ended s ∧ s.flt = none

/-- R102: the whole run from a state: one step for each event the host has yet to send. -/
def runAll (s : State) : Host.Outcome State Fault Refusal := Host.Core.run Sys2Proof.core s.pending.length s

/-- The number of command words in a list of events: each is answered by one response (R40, R103). -/
def commandCount : List HostEvent → Nat
  | [] => 0
  | .command _ :: es => commandCount es + 1
  | .reset :: es => commandCount es

/-- R87 (3), R82: a command's own test: the code it raises in a state, `none` when it passes. No command has two. -/
def ownTest (i : Instr) (s : State) : Option FaultCode :=
  match i with
  | .c16init => none
  | .c16upd _ => if s.crc16 = none then some .uninit16 else none
  | .c16rd => if s.crc16 = none then some .uninit16 else none
  | .c16chk _ => if s.crc16 = none then some .uninit16 else none
  | .c32init => none
  | .c32upd _ => if s.crc32 = none then some .uninit32 else none
  | .c32rd => if s.crc32 = none then some .uninit32 else none
  | .put8 _ => none
  | .put16 _ => none
  | .put32 _ => none
  | .putc cp => if 0x80 ≤ cp.toNat then some .nonAscii else none

/-- R10: two states whose block is the same: the four items, whatever the model's own two fields hold. -/
abbrev SameBlock (s t : State) : Prop :=
  s.crc16 = t.crc16 ∧ s.crc32 = t.crc32 ∧ s.flt = t.flt ∧ s.out = t.out

/-- R84, R82, R85: `UNINIT16` was raised because `crc16` was unwritten, the fault changed nothing, and nothing changed after
it; the same for C32. So a state with the code recorded has the register unwritten. -/
abbrev FaultMatchesState (s : State) : Prop :=
  (s.flt = some .uninit16 → s.crc16 = none) ∧ (s.flt = some .uninit32 → s.crc32 = none)

end Sys2Proof.Machine
end

