-- ==== Sys2Proof/Certificates/Slice0/Obligations.lean ====
section
/-! DEFINITION. The statements for the provers, from the numbered rules of spec/. A statement that rests on a choice of the
model, or on a passage the spec marks as derived, says so. -/

open Sys2Proof Sys2Proof.Machine

/-! ### Reset and the whole state (spec/10_state.md, spec/70_reset_and_hazards.md) -/

/-- R12: the reset values; a register nothing has written stays unwritten until its INIT command; a command that reads an
unwritten register faults and has no other effect. -/
def Obligations.UnwrittenRegistersHoldNoValue : Prop :=
  (State.reset.crc16 = none ∧ State.reset.crc32 = none ∧ State.reset.flt = none ∧ State.reset.out = []) ∧
  (∀ (s t : State), step s = .next t → s.crc16 = none → t.crc16 ≠ none →
    ∃ w rest, s.pending = .command w :: rest ∧ decode w = .command .c16init) ∧
  (∀ (s t : State), step s = .next t → s.crc32 = none → t.crc32 ≠ none →
    ∃ w rest, s.pending = .command w :: rest ∧ decode w = .command .c32init) ∧
  (∀ (s : State) (i : Instr), s.flt = none → s.crc16 = none →
    (i = .c16rd ∨ (∃ b, i = .c16upd b) ∨ ∃ t, i = .c16chk t) →
    exec i s = .next { s with flt := some .uninit16, responses := s.responses ++ [.none] }) ∧
  (∀ (s : State) (i : Instr), s.flt = none → s.crc32 = none → (i = .c32rd ∨ ∃ b, i = .c32upd b) →
    exec i s = .next { s with flt := some .uninit32, responses := s.responses ++ [.none] })

/-- R94: the reset event gives every item its reset value, from any state; nothing else clears `flt`, unwrites a register or
shortens `out`. -/
def Obligations.OnlyResetClearsWhatResetClears : Prop :=
  (∀ (s : State) rest, s.pending = .reset :: rest →
    ∃ t, step s = .next t ∧ t.crc16 = none ∧ t.crc32 = none ∧ t.flt = none ∧ t.out = []) ∧
  (∀ (s t : State), step s = .next t → (∀ rest, s.pending ≠ .reset :: rest) →
    (s.flt ≠ none → t.flt = s.flt) ∧ (s.crc16 ≠ none → t.crc16 ≠ none) ∧ (s.crc32 ≠ none → t.crc32 ≠ none) ∧
    s.out <+: t.out)

/-- Derived (spec/70_reset_and_hazards.md sections 1 and 6): the whole state after a reset event. That the host's two lists
survive it is the model's choice, notes/assumptions/4.md. -/
def Obligations.ResetEventKeepsOnlyTheHostsLists : Prop :=
  ∀ (s : State) rest, s.pending = .reset :: rest →
    step s = .next { crc16 := none, crc32 := none, flt := none, out := [], pending := rest, responses := s.responses }

/-- Derived (spec/10_state.md section 1, R18): two states that agree on `crc16`, `crc32` and `flt` behave alike on every
sequence of command words: the same registers, the same responses, the same bytes appended. -/
def Obligations.EqualRegistersBehaveAlike : Prop :=
  ∀ (ws : List CmdWord) (s₁ s₂ t₁ t₂ : State), s₁.crc16 = s₂.crc16 → s₁.crc32 = s₂.crc32 → s₁.flt = s₂.flt →
    s₁.pending = ws.map .command → s₂.pending = ws.map .command → runAll s₁ = .next t₁ → runAll s₂ = .next t₂ →
    t₁.crc16 = t₂.crc16 ∧ t₁.crc32 = t₂.crc32 ∧ t₁.flt = t₂.flt ∧
    ∃ rs bytes, t₁.responses = s₁.responses ++ rs ∧ t₂.responses = s₂.responses ++ rs ∧
      t₁.out = s₁.out ++ bytes ∧ t₂.out = s₂.out ++ bytes

/-! ### Steps, responses, faults (spec/30_encoding.md section 4, spec/60_exceptions.md section 1) -/

/-- Derived (R87, R102): with no fault recorded, a step whose next word decodes to a command is that command's meaning, with
the word taken off the host's list. -/
def Obligations.StepRunsTheDecodedCommand : Prop :=
  ∀ (s : State) w rest i, s.pending = .command w :: rest → s.flt = none → decode w = .command i →
    step s = exec i { s with pending := rest }

/-- Derived (R7, R102): with nothing issued a step changes nothing; the model's reading, notes/assumptions/3.md. -/
def Obligations.NothingIssuedNothingChanges : Prop :=
  ∀ (s : State), s.pending = [] → step s = .next s

/-- R87: the checks of one word, in their order: `flt` set; illegal; the command's own test. A command that passes all three
records no fault. -/
def Obligations.ChecksAreMadeInOrder : Prop :=
  ∀ (s : State) w rest, s.pending = .command w :: rest →
    (s.flt ≠ none → step s = .next { s with pending := rest, responses := s.responses ++ [.none] }) ∧
    (s.flt = none → (∀ i, decode w ≠ .command i) →
      step s = .next { s with pending := rest, flt := some .illegalCmd, responses := s.responses ++ [.none] }) ∧
    (∀ i f, s.flt = none → decode w = .command i → ownTest i s = some f →
      step s = .next { s with pending := rest, flt := some f, responses := s.responses ++ [.none] }) ∧
    (∀ i, s.flt = none → decode w = .command i → ownTest i s = none → ∃ t, step s = .next t ∧ t.flt = none)

/-- R82: the four codes, their numbers, and exactly when a word issued with `flt` clear raises each;
nothing but the code is recorded. -/
def Obligations.FaultCausesAreExactlyTheFour : Prop :=
  (FaultCode.number .illegalCmd = 1 ∧ FaultCode.number .uninit16 = 2 ∧ FaultCode.number .uninit32 = 3 ∧
    FaultCode.number .nonAscii = 4) ∧
  ∀ (w : CmdWord) (s t : State), s.flt = none → issueWord w s = .next t →
    (t.flt = some .illegalCmd ↔ ∀ r ∈ opcodeMap, w &&& r.mask ≠ r.pattern) ∧
    (t.flt = some .uninit16 ↔ s.crc16 = none ∧
      (decode w = .command .c16rd ∨ (∃ b, decode w = .command (.c16upd b)) ∨ ∃ x, decode w = .command (.c16chk x))) ∧
    (t.flt = some .uninit32 ↔ s.crc32 = none ∧
      (decode w = .command .c32rd ∨ ∃ b, decode w = .command (.c32upd b))) ∧
    (t.flt = some .nonAscii ↔ ∃ cp, decode w = .command (.putc cp) ∧ 0x80 ≤ cp.toNat) ∧
    (∀ f, t.flt = some f → t = { s with flt := some f, responses := s.responses ++ [.none] })

/-- R84: a word that raises a fault changes nothing but `flt`, its response is `none`, and no later word has an effect. -/
def Obligations.FaultingWordHasNoPartialEffect : Prop :=
  ∀ (w : CmdWord) (s t : State) f, s.flt = none → issueWord w s = .next t → t.flt = some f →
    t = { s with flt := some f, responses := s.responses ++ [.none] } ∧
    ∀ w', issueWord w' t = .next { t with responses := t.responses ++ [.none] }

/-- R85: while `flt` is set every word, legal or not, is ignored: after any list of words the block is as it was, each word
answered `none`. -/
def Obligations.FaultedBlockIgnoresEveryWord : Prop :=
  ∀ (s : State) (ws : List CmdWord), s.flt ≠ none → s.pending = ws.map .command →
    runAll s = .next { s with pending := [], responses := s.responses ++ ws.map (fun _ => .none) }

/-- R40: one response for each word, of the kind the table gives. -/
def Obligations.OneResponseOfItsKindForEachWord : Prop :=
  ∀ (w : CmdWord) (s : State), ∃ t r, issueWord w s = .next t ∧ t.responses = s.responses ++ [r] ∧
    (t.flt ≠ none → r = .none) ∧
    (t.flt = none → ∃ i, decode w = .command i ∧
      (i = .c16rd → ∃ v, r = .r16 v) ∧ (i = .c32rd → ∃ v, r = .r32 v) ∧
      (∀ x c, i = .c16chk x → s.crc16 = some c → r = .r1 (if ~~~c = x then 1#1 else 0#1)) ∧
      (i ≠ .c16rd → i ≠ .c32rd → (∀ x, i ≠ .c16chk x) → r = .none))

/-- Derived (R7, R100, R103): every step answers a next state; it takes the next event, if there is one, off the host's
list, and answers a command word with one response. That a step with nothing pending answers a next state with nothing
pending is the model's choice, notes/assumptions/3.md (DEDUCED), and so is that a reset event leaves the rest of the host's
list and the responses as they were, notes/assumptions/4.md (DESIGN CHOICE). -/
def Obligations.EveryStepCompletesOneEvent : Prop :=
  ∀ (s : State), ∃ t, step s = .next t ∧ t.pending = s.pending.tail ∧
    (∀ w rest, s.pending = .command w :: rest → t.responses.length = s.responses.length + 1) ∧
    (∀ rest, s.pending = .reset :: rest → t.responses = s.responses)

/-- Derived (R102): the run from any state ends with the host's list exhausted, one response for each command word in it.
That responses before a reset event are kept is the model's choice, notes/assumptions/4.md. -/
def Obligations.RunEndsWithTheListExhausted : Prop :=
  ∀ (s : State), ∃ t rs, runAll s = .next t ∧ Ended t ∧ t.responses = s.responses ++ rs ∧
    rs.length = commandCount s.pending

/-- Derived (R82, R84, R85): every step keeps it: a recorded UNINIT code means that the register is unwritten. -/
def Obligations.StepKeepsUninitMatchingUnwritten : Prop :=
  ∀ (s t : State), FaultMatchesState s → step s = .next t → FaultMatchesState t

/-- Derived (R12): the invariant of the statement above holds after reset. -/
def Obligations.ResetMeetsUninitMatchingUnwritten : Prop := FaultMatchesState Sys2Proof.core.reset

/-! ### Encoding (spec/30_encoding.md) -/

/-- Derived (R42, which the spec derives from R33 and R35): decoding the encoder's word gives the command back, with every
operand at every value of its width. -/
def Obligations.DecodeOfEncodeIsTheCommand : Prop := ∀ i : Instr, decode (encode i) = .command i

/-- Derived (R42): every word that is not illegal is the encoder's word of what it decodes to. -/
def Obligations.EncodeOfDecodeIsTheWord : Prop := ∀ (w : CmdWord) (i : Instr), decode w = .command i → encode i = w

/-- R35, R34: a word is a row's command, with the named bits as its operand, if and only if `w AND mask = match`; no word
is the command of two rows. -/
def Obligations.WordIsARowsCommandIffMaskedBitsMatch : Prop :=
  (∀ w, decode w = .command .c16init ↔ w &&& 0xFFFFFFFFFF#40 = 0x1000000000#40) ∧
  (∀ w b, decode w = .command (.c16upd b) ↔ w &&& 0xFFFFFFFF00#40 = 0x1100000000#40 ∧ b = w.extractLsb' 0 8) ∧
  (∀ w, decode w = .command .c16rd ↔ w &&& 0xFFFFFFFFFF#40 = 0x1200000000#40) ∧
  (∀ w t, decode w = .command (.c16chk t) ↔ w &&& 0xFFFFFF0000#40 = 0x1300000000#40 ∧ t = w.extractLsb' 0 16) ∧
  (∀ w, decode w = .command .c32init ↔ w &&& 0xFFFFFFFFFF#40 = 0x2000000000#40) ∧
  (∀ w b, decode w = .command (.c32upd b) ↔ w &&& 0xFFFFFFFF00#40 = 0x2100000000#40 ∧ b = w.extractLsb' 0 8) ∧
  (∀ w, decode w = .command .c32rd ↔ w &&& 0xFFFFFFFFFF#40 = 0x2200000000#40) ∧
  (∀ w v, decode w = .command (.put8 v) ↔ w &&& 0xFFFFFFFF00#40 = 0x3100000000#40 ∧ v = w.extractLsb' 0 8) ∧
  (∀ w v, decode w = .command (.put16 v) ↔ w &&& 0xFFFFFF0000#40 = 0x3200000000#40 ∧ v = w.extractLsb' 0 16) ∧
  (∀ w v, decode w = .command (.put32 v) ↔ w &&& 0xFF00000000#40 = 0x3400000000#40 ∧ v = w.extractLsb' 0 32) ∧
  (∀ w cp, decode w = .command (.putc cp) ↔ w &&& 0xFFFFE00000#40 = 0x3800000000#40 ∧ cp = w.extractLsb' 0 21) ∧
  opcodeMap.Pairwise fun r q => ∀ w : CmdWord, ¬ (w &&& r.mask = r.pattern ∧ w &&& q.mask = q.pattern)

/-- R36, R37: a word whose operation code is unassigned, or that has a 1 in a bit its format says must be 0, is no command,
and issuing it raises ILLEGAL_CMD and does nothing else; the all-zero and all-ones words are such words. -/
def Obligations.UnassignedOrStrayBitsAreIllegal : Prop :=
  (∀ (w : CmdWord) (s : State), s.flt = none →
    (w.extractLsb' 32 8 ∉ [0x10#8, 0x11#8, 0x12#8, 0x13#8, 0x20#8, 0x21#8, 0x22#8, 0x31#8, 0x32#8, 0x34#8, 0x38#8] ∨
     (w.extractLsb' 32 8 ∈ [0x10#8, 0x12#8, 0x20#8, 0x22#8] ∧ w.extractLsb' 0 32 ≠ 0#32) ∨
     (w.extractLsb' 32 8 ∈ [0x11#8, 0x21#8, 0x31#8] ∧ w.extractLsb' 8 24 ≠ 0#24) ∨
     (w.extractLsb' 32 8 ∈ [0x13#8, 0x32#8] ∧ w.extractLsb' 16 16 ≠ 0#16) ∨
     (w.extractLsb' 32 8 = 0x38#8 ∧ w.extractLsb' 21 11 ≠ 0#11)) →
    (∀ i, decode w ≠ .command i) ∧
    issueWord w s = .next { s with flt := some .illegalCmd, responses := s.responses ++ [.none] }) ∧
  (∀ i, decode 0x0000000000#40 ≠ .command i) ∧ (∀ i, decode 0xFFFFFFFFFF#40 ≠ .command i) ∧
  (∀ i, decode 0x1100000131#40 ≠ .command i)

/-- Sanity: the example words of R35, one of each row. -/
def Obligations.ExampleWordsOfTheOpcodeMapDecode : Prop :=
  [0x1000000000#40, 0x1100000031#40, 0x1200000000#40, 0x130000B5C3#40, 0x2000000000#40, 0x21000000BE#40, 0x2200000000#40,
    0x31000000D8#40, 0x32000000BE#40, 0x3407FFF800#40, 0x3800000041#40].map decode =
  [.command .c16init, .command (.c16upd 0x31#8), .command .c16rd, .command (.c16chk 0xB5C3#16), .command .c32init,
    .command (.c32upd 0xBE#8), .command .c32rd, .command (.put8 0xD8#8), .command (.put16 190#16),
    .command (.put32 0x07FFF800#32), .command (.putc 0x41#21)]

/-! ### Unit C16 (spec/40_crc16.md) -/

/-- R45: the one-byte update, written out as eight iterations, and its corner cases and worked example. -/
def Obligations.Step16IsEightIterations : Prop :=
  (∀ (c : BitVec 16) (b : Byte),
    let f : BitVec 16 → BitVec 16 := fun x => if x[0] = true then (x >>> 1) ^^^ 0x8408#16 else x >>> 1
    step16 c b = f (f (f (f (f (f (f (f (c ^^^ b.setWidth 16))))))))) ∧
  step16 0x0000#16 0x00#8 = 0x0000#16 ∧ step16 0x0001#16 0x01#8 = 0x0000#16 ∧ step16 0x8000#16 0x00#8 = 0x0080#16 ∧
  step16 0x0000#16 0x80#8 = 0x8408#16 ∧ step16 0xFFFF#16 0x31#8 = 0x2F8D#16

/-- R46: the bytes are taken in order, first byte first, and a message may be given in pieces. -/
def Obligations.Run16TakesAMessageInPieces : Prop :=
  (∀ c, run16 c [] = c) ∧ (∀ c b s, run16 c (b :: s) = run16 (step16 c b) s) ∧
  ∀ c s t, run16 c (s ++ t) = run16 (run16 c s) t

/-- Derived (R53 (b) to (e), which the spec derives from R45): linearity, the table form, and that two running values never
merge when given the same byte. -/
def Obligations.Step16IsLinearTabulatedAndInjective : Prop :=
  (∀ c₁ c₂ b₁ b₂, step16 (c₁ ^^^ c₂) (b₁ ^^^ b₂) = step16 c₁ b₁ ^^^ step16 c₂ b₂) ∧
  (∀ c b, step16 c b = step16 (c ^^^ b.setWidth 16) 0x00#8) ∧
  (∀ c b, step16 c b = (c >>> 8) ^^^ table16 ((c ^^^ b.setWidth 16).extractLsb' 0 8)) ∧
  (table16 0x01#8 = 0x1189#16 ∧ table16 0x80#8 = 0x8408#16 ∧ table16 0xFF#8 = 0x0F78#16) ∧
  ∀ b c₁ c₂, step16 c₁ b = step16 c₂ b → c₁ = c₂

/-- Derived (R54): a running value followed by its own complement, low byte first, ends at the residue, and so does every
message followed by its own final value. -/
def Obligations.Residue16IsConstant : Prop :=
  (∀ c : BitVec 16, step16 (step16 c ((~~~c).extractLsb' 0 8)) ((~~~c).extractLsb' 8 8) = 0xF0B8#16) ∧
  ∀ s : List Byte, run16 seed16 (s ++ le 2 (fin16 s)) = 0xF0B8#16

/-- R49: `C16INIT`. -/
def Obligations.C16InitLoadsTheSeed : Prop :=
  (∀ s : State, s.flt = none →
    exec .c16init s = .next { s with crc16 := some 0xFFFF#16, responses := s.responses ++ [.none] }) ∧
  (∀ s : State, s.flt ≠ none → exec .c16init s = .next { s with responses := s.responses ++ [.none] }) ∧
  decode 0x1000000000#40 = .command .c16init ∧
  (∀ s t : State, s.flt = none → exec .c16init s = .next t →
    exec .c16rd t = .next { t with responses := t.responses ++ [.r16 0x0000#16] })

/-- R50: `C16UPD b`. -/
def Obligations.C16UpdStepsTheRunningValue : Prop :=
  (∀ (b : BitVec 8) (s : State) c, s.flt = none → s.crc16 = some c →
    exec (.c16upd b) s = .next { s with crc16 := some (step16 c b), responses := s.responses ++ [.none] }) ∧
  (∀ (b : BitVec 8) (s : State), s.flt = none → s.crc16 = none →
    exec (.c16upd b) s = .next { s with flt := some .uninit16, responses := s.responses ++ [.none] }) ∧
  (∀ (b : BitVec 8) (s : State), s.flt ≠ none →
    exec (.c16upd b) s = .next { s with responses := s.responses ++ [.none] }) ∧
  (∀ b : BitVec 8, decode (0x1100000000#40 + b.setWidth 40) = .command (.c16upd b)) ∧
  step16 0xFFFF#16 0x00#8 = 0x0F87#16 ∧ step16 0xFFFF#16 0x31#8 = 0x2F8D#16

/-- R51: `C16RD`: the complement is the response, and the running value stays. -/
def Obligations.C16RdAnswersTheComplement : Prop :=
  (∀ (s : State) c, s.flt = none → s.crc16 = some c →
    exec .c16rd s = .next { s with responses := s.responses ++ [.r16 (~~~c)] }) ∧
  (∀ s : State, s.flt = none → s.crc16 = none →
    exec .c16rd s = .next { s with flt := some .uninit16, responses := s.responses ++ [.none] }) ∧
  (∀ s : State, s.flt ≠ none → exec .c16rd s = .next { s with responses := s.responses ++ [.none] }) ∧
  decode 0x1200000000#40 = .command .c16rd ∧
  run16 0xFFFF#16 [0x31#8, 0x32#8, 0x33#8, 0x34#8, 0x35#8, 0x36#8, 0x37#8, 0x38#8, 0x39#8] = 0x6F91#16 ∧
  ~~~0x6F91#16 = 0x906E#16

/-- R52, R93: `C16CHK t`: the verdict on all 16 bits is the response; a mismatch is no fault and changes nothing. -/
def Obligations.C16ChkAnswersWhetherTheTrailerMatches : Prop :=
  (∀ (t : BitVec 16) (s : State) c, s.flt = none → s.crc16 = some c →
    exec (.c16chk t) s = .next { s with responses := s.responses ++ [.r1 (if ~~~c = t then 1#1 else 0#1)] }) ∧
  (∀ (t : BitVec 16) (s : State), s.flt = none → s.crc16 = none →
    exec (.c16chk t) s = .next { s with flt := some .uninit16, responses := s.responses ++ [.none] }) ∧
  (∀ (t : BitVec 16) (s : State), s.flt ≠ none →
    exec (.c16chk t) s = .next { s with responses := s.responses ++ [.none] }) ∧
  (∀ t : BitVec 16, decode (0x1300000000#40 + t.setWidth 40) = .command (.c16chk t)) ∧
  (∀ q0 q1 : Byte, (trailer16 q0 q1).toNat = q0.toNat + 256 * q1.toNat ∧ (trailer16 q0 q1).toNat = leVal [q0, q1]) ∧
  (∀ q0 q1 : Byte, trailer16 q0 q1 = trailer16 q1 q0 ↔ q0 = q1) ∧
  (∀ t : BitVec 16, ~~~(run16 0xFFFF#16 []) = t ↔ t = 0x0000#16) ∧
  ~~~0x4A3C#16 = 0xB5C3#16 ∧ trailer16 0xC3#8 0xB5#8 = 0xB5C3#16 ∧
  run16 0xFFFF#16 [0x83#8, 0xFE#8, 0xD3#8, 0x40#8, 0x7A#8, 0x93#8, 0x97#8, 0x23#8, 0xA5#8, 0xC6#8, 0x39#8, 0xB2#8, 0x69#8,
    0x16#8, 0xD5#8, 0x05#8] = 0x4A3C#16

/-- R11: after any commands without a fault, `crc16` is the running value of the bytes since the last `C16INIT`, or of the
message it held before with the bytes given since; it changes only to the seed and to what `C16UPD` computes from it. -/
def Obligations.Crc16HoldsTheRunOfItsMessage : Prop :=
  (∀ (s t : State) (is : List Instr) (m : Option (List Byte)), s.flt = none → s.pending = send is →
    s.crc16 = m.map (run16 0xFFFF#16) → runAll s = .next t → t.flt = none →
    t.crc16 = (message16 m is).map (run16 0xFFFF#16)) ∧
  (∀ (s t : State) (i : Instr), exec i s = .next t → t.crc16 = s.crc16 ∨ (i = .c16init ∧ t.crc16 = some 0xFFFF#16) ∨
    ∃ b c, i = .c16upd b ∧ s.crc16 = some c ∧ t.crc16 = some (step16 c b))

/-- R44: a C16 command changes neither `crc32` nor `out` (nor what the host has yet to send), no command of C32 or SER
changes `crc16`; a C16 command reads only `crc16` and `flt`; and the commands of the other units, taken away from between,
leave what C16 computes as it was. -/
def Obligations.C16TouchesOnlyItsOwnState : Prop :=
  (∀ (i : Instr) (s t : State), i.unit = .c16 → exec i s = .next t →
    t.crc32 = s.crc32 ∧ t.out = s.out ∧ (∀ a, t.outByte a = s.outByte a) ∧ t.pending = s.pending) ∧
  (∀ (i : Instr) (s t : State), i.unit ≠ .c16 → exec i s = .next t → t.crc16 = s.crc16) ∧
  (∀ (i : Instr) (s s' t t' : State), i.unit = .c16 → s.crc16 = s'.crc16 → s.flt = s'.flt → exec i s = .next t →
    exec i s' = .next t' → t.crc16 = t'.crc16 ∧ t.flt = t'.flt ∧
    ∃ r, t.responses = s.responses ++ [r] ∧ t'.responses = s'.responses ++ [r]) ∧
  (∀ (is : List Instr) (s t : State), s.flt = none → s.pending = send is → runAll s = .next t → t.flt = none →
    ∃ t', runAll { s with pending := send (is.filter fun i => i.unit = .c16) } = .next t' ∧ t'.flt = none ∧
      t'.crc16 = t.crc16)

/-- Derived (R47, R41 `C16SUM`): for every message, from every state without a fault, `C16INIT`, the message's bytes in order
and `C16RD` answer the message's final value, and change nothing but `crc16`. -/
def Obligations.C16AnswersTheFinalValueOfEveryMessage : Prop :=
  ∀ (s : State) (m : List Byte), s.flt = none → s.pending = send (checksum16 m) →
    runAll s = .next { s with
      pending := []
      crc16 := some (run16 0xFFFF#16 m)
      responses := s.responses ++ [.none] ++ m.map (fun _ => .none) ++ [.r16 (fin16 m)] }

/-- Derived (R55, the contract on the host): the host's check of an install code ends with the verdict 1 exactly when the
trailer read as a number is the payload's final value; for a payload of an admitted length that is an install code's validity. -/
def Obligations.InstallCodeCheckAnswersItsValidity : Prop :=
  ∀ (s : State) (payload : List Byte) (q0 q1 : Byte), s.flt = none → s.pending = send (checkInstallCode payload q0 q1) →
    ∃ t m, runAll s = .next t ∧ t.flt = none ∧ t.responses.getLast? = some (.r1 m) ∧
      (m = 1#1 ↔ leVal [q0, q1] = (fin16 payload).toNat) ∧
      (payload.length ∈ [6, 8, 12, 16] → (m = 1#1 ↔ installCodeValid payload q0 q1))

/-! ### Unit C32 (spec/41_crc32.md) -/

/-- R58: the one-byte update, written out as eight iterations, and its corner cases and worked example. -/
def Obligations.Step32IsEightIterations : Prop :=
  (∀ (c : BitVec 32) (b : Byte),
    let f : BitVec 32 → BitVec 32 := fun x => if x[0] = true then (x >>> 1) ^^^ 0xEDB88320#32 else x >>> 1
    step32 c b = f (f (f (f (f (f (f (f (c ^^^ b.setWidth 32))))))))) ∧
  step32 0x00000000#32 0x00#8 = 0x00000000#32 ∧ step32 0x00000001#32 0x01#8 = 0x00000000#32 ∧
  step32 0x80000000#32 0x00#8 = 0x00800000#32 ∧ step32 0x00000000#32 0x80#8 = 0xEDB88320#32 ∧
  step32 0xFFFFFFFF#32 0xFF#8 = 0x00FFFFFF#32 ∧ step32 0xFFFFFFFF#32 0x31#8 = 0x7C231048#32

/-- R59: the bytes are taken in order, first byte first, and a message may be given in pieces. -/
def Obligations.Run32TakesAMessageInPieces : Prop :=
  (∀ c, run32 c [] = c) ∧ (∀ c b s, run32 c (b :: s) = run32 (step32 c b) s) ∧
  ∀ c s t, run32 c (s ++ t) = run32 (run32 c s) t

/-- Derived (R65 (b) to (e), which the spec derives from R58). -/
def Obligations.Step32IsLinearTabulatedAndInjective : Prop :=
  (∀ c₁ c₂ b₁ b₂, step32 (c₁ ^^^ c₂) (b₁ ^^^ b₂) = step32 c₁ b₁ ^^^ step32 c₂ b₂) ∧
  (∀ c b, step32 c b = step32 (c ^^^ b.setWidth 32) 0x00#8) ∧
  (∀ c b, step32 c b = (c >>> 8) ^^^ table32 ((c ^^^ b.setWidth 32).extractLsb' 0 8)) ∧
  (table32 0x01#8 = 0x77073096#32 ∧ table32 0x80#8 = 0xEDB88320#32 ∧ table32 0xFF#8 = 0x2D02EF8D#32) ∧
  ∀ b c₁ c₂, step32 c₁ b = step32 c₂ b → c₁ = c₂

/-- Derived (R66): a running value followed by the four bytes of its complement, low first, ends at the residue, and so does
every message followed by its own final value. -/
def Obligations.Residue32IsConstant : Prop :=
  (∀ c : BitVec 32, step32 (step32 (step32 (step32 c ((~~~c).extractLsb' 0 8)) ((~~~c).extractLsb' 8 8))
    ((~~~c).extractLsb' 16 8)) ((~~~c).extractLsb' 24 8) = 0xDEBB20E3#32) ∧
  ∀ s : List Byte, run32 seed32 (s ++ le 4 (fin32 s)) = 0xDEBB20E3#32

/-- R62: `C32INIT`. -/
def Obligations.C32InitLoadsTheSeed : Prop :=
  (∀ s : State, s.flt = none →
    exec .c32init s = .next { s with crc32 := some 0xFFFFFFFF#32, responses := s.responses ++ [.none] }) ∧
  (∀ s : State, s.flt ≠ none → exec .c32init s = .next { s with responses := s.responses ++ [.none] }) ∧
  decode 0x2000000000#40 = .command .c32init ∧
  (∀ s t : State, s.flt = none → exec .c32init s = .next t →
    exec .c32rd t = .next { t with responses := t.responses ++ [.r32 0x00000000#32] })

/-- R63: `C32UPD b`. -/
def Obligations.C32UpdStepsTheRunningValue : Prop :=
  (∀ (b : BitVec 8) (s : State) c, s.flt = none → s.crc32 = some c →
    exec (.c32upd b) s = .next { s with crc32 := some (step32 c b), responses := s.responses ++ [.none] }) ∧
  (∀ (b : BitVec 8) (s : State), s.flt = none → s.crc32 = none →
    exec (.c32upd b) s = .next { s with flt := some .uninit32, responses := s.responses ++ [.none] }) ∧
  (∀ (b : BitVec 8) (s : State), s.flt ≠ none →
    exec (.c32upd b) s = .next { s with responses := s.responses ++ [.none] }) ∧
  (∀ b : BitVec 8, decode (0x2100000000#40 + b.setWidth 40) = .command (.c32upd b)) ∧
  step32 0xFFFFFFFF#32 0x00#8 = 0x2DFD1072#32 ∧ step32 0xFFFFFFFF#32 0x31#8 = 0x7C231048#32

/-- R64: `C32RD`: the complement is the response, and the running value stays. -/
def Obligations.C32RdAnswersTheComplement : Prop :=
  (∀ (s : State) c, s.flt = none → s.crc32 = some c →
    exec .c32rd s = .next { s with responses := s.responses ++ [.r32 (~~~c)] }) ∧
  (∀ s : State, s.flt = none → s.crc32 = none →
    exec .c32rd s = .next { s with flt := some .uninit32, responses := s.responses ++ [.none] }) ∧
  (∀ s : State, s.flt ≠ none → exec .c32rd s = .next { s with responses := s.responses ++ [.none] }) ∧
  decode 0x2200000000#40 = .command .c32rd ∧
  run32 0xFFFFFFFF#32 [0x31#8, 0x32#8, 0x33#8, 0x34#8, 0x35#8, 0x36#8, 0x37#8, 0x38#8, 0x39#8] = 0x340BC6D9#32 ∧
  ~~~0x340BC6D9#32 = 0xCBF43926#32

/-- R13: as R11, for `crc32`. -/
def Obligations.Crc32HoldsTheRunOfItsMessage : Prop :=
  (∀ (s t : State) (is : List Instr) (m : Option (List Byte)), s.flt = none → s.pending = send is →
    s.crc32 = m.map (run32 0xFFFFFFFF#32) → runAll s = .next t → t.flt = none →
    t.crc32 = (message32 m is).map (run32 0xFFFFFFFF#32)) ∧
  (∀ (s t : State) (i : Instr), exec i s = .next t → t.crc32 = s.crc32 ∨ (i = .c32init ∧ t.crc32 = some 0xFFFFFFFF#32) ∨
    ∃ b c, i = .c32upd b ∧ s.crc32 = some c ∧ t.crc32 = some (step32 c b))

/-- R57: as R44, for C32; so no byte SER emits is fed to C32 by the block. -/
def Obligations.C32TouchesOnlyItsOwnState : Prop :=
  (∀ (i : Instr) (s t : State), i.unit = .c32 → exec i s = .next t →
    t.crc16 = s.crc16 ∧ t.out = s.out ∧ (∀ a, t.outByte a = s.outByte a) ∧ t.pending = s.pending) ∧
  (∀ (i : Instr) (s t : State), i.unit ≠ .c32 → exec i s = .next t → t.crc32 = s.crc32) ∧
  (∀ (i : Instr) (s s' t t' : State), i.unit = .c32 → s.crc32 = s'.crc32 → s.flt = s'.flt → exec i s = .next t →
    exec i s' = .next t' → t.crc32 = t'.crc32 ∧ t.flt = t'.flt ∧
    ∃ r, t.responses = s.responses ++ [r] ∧ t'.responses = s'.responses ++ [r]) ∧
  (∀ (is : List Instr) (s t : State), s.flt = none → s.pending = send is → runAll s = .next t → t.flt = none →
    ∃ t', runAll { s with pending := send (is.filter fun i => i.unit = .c32) } = .next t' ∧ t'.flt = none ∧
      t'.crc32 = t.crc32)

/-- Derived (R60, R67, R41 `C32SUM`): for every message, from every state without a fault, the host's record sequence answers
the message's final value and emits it, low byte first, before the message. -/
def Obligations.RecordSequenceEmitsTheChecksumBeforeTheMessage : Prop :=
  ∀ (s : State) (m : List Byte), s.flt = none → s.pending = send (recordWithChecksum m) →
    runAll s = .next { s with
      pending := []
      crc32 := some (run32 0xFFFFFFFF#32 m)
      out := s.out ++ le 4 (fin32 m) ++ m
      responses := s.responses ++ [.none] ++ m.map (fun _ => .none) ++ [.r32 (fin32 m)] ++ [.none] ++ m.map (fun _ => .none) }

/-- R99: the three reads change nothing but the responses, and what any command does next is what it would have done without
the read. -/
def Obligations.ReadsAreHarmless : Prop :=
  ∀ (i : Instr) (s t : State), (i = .c16rd ∨ (∃ x, i = .c16chk x) ∨ i = .c32rd) → exec i s = .next t → t.flt = s.flt →
    SameBlock t s ∧ t.pending = s.pending ∧
    ∀ (j : Instr) (t₁ t₂ : State), exec j t = .next t₁ → exec j s = .next t₂ → SameBlock t₁ t₂

/-! ### Unit SER (spec/42_serializer.md) -/

/-- R69: byte k of `LE(n, v)` is `floor(v / 2^(8k)) mod 256`, for the three widths and in general, and the examples. -/
def Obligations.LeIsLowByteFirst : Prop :=
  (∀ v : BitVec 8, le 1 v = [v]) ∧
  (∀ v : BitVec 16, le 2 v = [v.extractLsb' 0 8, v.extractLsb' 8 8]) ∧
  (∀ v : BitVec 32, le 4 v = [v.extractLsb' 0 8, v.extractLsb' 8 8, v.extractLsb' 16 8, v.extractLsb' 24 8]) ∧
  (∀ (n : Nat) (v : BitVec (8 * n)) (k : Nat), k < n →
    ((le n v)[k]?).map BitVec.toNat = some (v.toNat / 2 ^ (8 * k) % 256)) ∧
  le 2 0x00BE#16 = [0xBE#8, 0x00#8] ∧ le 4 0x07FFF800#32 = [0x00#8, 0xF8#8, 0xFF#8, 0x07#8] ∧
  le 4 0xCBF43926#32 = [0x26#8, 0x39#8, 0xF4#8, 0xCB#8]

/-- Derived (R78, which the spec derives from R69): `LEval` and `LE` are inverse, a wide emission is the narrow emissions of its
parts, low part first, and a run of serializer commands without a fault appends the sum of their widths. -/
def Obligations.LeIsABijectionAndWideIsNarrow : Prop :=
  (∀ (n : Nat) (v : BitVec (8 * n)), leVal (le n v) = v.toNat) ∧
  (∀ s : List Byte, le s.length (BitVec.ofNat (8 * s.length) (leVal s)) = s) ∧
  (∀ v : BitVec 16, le 2 v = le 1 (v.extractLsb' 0 8) ++ le 1 (v.extractLsb' 8 8)) ∧
  (∀ v : BitVec 32, le 4 v = le 2 (v.extractLsb' 0 16) ++ le 2 (v.extractLsb' 16 16)) ∧
  (∀ (is : List Instr) (s t : State), (∀ i ∈ is, i.unit = .ser) → s.flt = none → s.pending = send is →
    runAll s = .next t → t.flt = none → t.out.length = s.out.length + (is.map Instr.emitWidth).sum ∧ s.out <+: t.out)

/-- R72: `PUT8 v`. -/
def Obligations.Put8AppendsItsByte : Prop :=
  (∀ (v : BitVec 8) (s : State), s.flt = none →
    exec (.put8 v) s = .next { s with out := s.out ++ [v], responses := s.responses ++ [.none] }) ∧
  (∀ (v : BitVec 8) (s : State), s.flt ≠ none →
    exec (.put8 v) s = .next { s with responses := s.responses ++ [.none] }) ∧
  (∀ v : BitVec 8, decode (0x3100000000#40 + v.setWidth 40) = .command (.put8 v)) ∧
  encode (.put8 0xD8#8) = 0x31000000D8#40

/-- R73: `PUT16 v`, low byte first, both bytes in one step. -/
def Obligations.Put16AppendsTwoBytesLowFirst : Prop :=
  (∀ (v : BitVec 16) (s : State), s.flt = none →
    exec (.put16 v) s = .next { s with
      out := s.out ++ [v.extractLsb' 0 8, v.extractLsb' 8 8]
      responses := s.responses ++ [.none] }) ∧
  (∀ (v : BitVec 16) (s : State), s.flt ≠ none →
    exec (.put16 v) s = .next { s with responses := s.responses ++ [.none] }) ∧
  (∀ v : BitVec 16, decode (0x3200000000#40 + v.setWidth 40) = .command (.put16 v)) ∧
  encode (.put16 190#16) = 0x32000000BE#40

/-- R74: `PUT32 v`, low byte first, all four bytes in one step. -/
def Obligations.Put32AppendsFourBytesLowFirst : Prop :=
  (∀ (v : BitVec 32) (s : State), s.flt = none →
    exec (.put32 v) s = .next { s with
      out := s.out ++ [v.extractLsb' 0 8, v.extractLsb' 8 8, v.extractLsb' 16 8, v.extractLsb' 24 8]
      responses := s.responses ++ [.none] }) ∧
  (∀ (v : BitVec 32) (s : State), s.flt ≠ none →
    exec (.put32 v) s = .next { s with responses := s.responses ++ [.none] }) ∧
  (∀ v : BitVec 32, decode (0x3400000000#40 + v.setWidth 40) = .command (.put32 v)) ∧
  encode (.put32 0x07FFF800#32) = 0x3407FFF800#40

/-- R75: `PUTC cp`, under the value of `PUTC_NONASCII` the spec takes, and what its other value would do. -/
def Obligations.PutcAppendsAsciiAndFaultsAbove : Prop :=
  (∀ (cp : BitVec 21) (s : State), s.flt = none → cp.toNat ≤ 0x7F →
    exec (.putc cp) s = .next { s with out := s.out ++ [cp.extractLsb' 0 8], responses := s.responses ++ [.none] }) ∧
  (∀ (cp : BitVec 21) (s : State), s.flt = none → 0x80 ≤ cp.toNat →
    exec (.putc cp) s = .next { s with flt := some .nonAscii, responses := s.responses ++ [.none] }) ∧
  (∀ (cp : BitVec 21) (s : State), s.flt ≠ none →
    exec (.putc cp) s = .next { s with responses := s.responses ++ [.none] }) ∧
  (∀ cp : BitVec 21, decode (0x3800000000#40 + cp.setWidth 40) = .command (.putc cp)) ∧
  (∀ (cp : BitVec 21) (s : State), 0x80 ≤ cp.toNat →
    s.emitChar .truncateLow8 cp = { s with out := s.out ++ [cp.extractLsb' 0 8], responses := s.responses ++ [.none] })

/-- Derived (R21, R26, R79, R85): what a command of SER leaves alone: both registers, what the host has yet to send, and every
byte of the output stream below the address stored to, which is the stream's length before the command; with `flt` clear
before and after it stores its width in bytes from that address and nothing past them; otherwise it stores nothing. -/
def Obligations.SerStoresOnlyAtTheEndOfTheStream : Prop :=
  ∀ (i : Instr) (s t : State), i.unit = .ser → exec i s = .next t →
    t.crc16 = s.crc16 ∧ t.crc32 = s.crc32 ∧ t.pending = s.pending ∧
    (∀ a, a < s.out.length → t.outByte a = s.outByte a) ∧
    (t.flt = none → (∀ k, k < i.emitWidth → t.outByte (s.out.length + k) = (emitted i)[k]? ∧ (emitted i)[k]? ≠ none) ∧
      ∀ a, s.out.length + i.emitWidth ≤ a → t.outByte a = none) ∧
    (t.flt ≠ none → t.out = s.out)

/-- R76: a byte array passes through unchanged: `out` grows by exactly its bytes, index 0 first. -/
def Obligations.ByteArraysPassThrough : Prop :=
  ∀ (s : State) (a : List Byte), s.flt = none → s.pending = send (a.map .put8) →
    runAll s = .next { s with pending := [], out := s.out ++ a, responses := s.responses ++ a.map (fun _ => .none) }

/-- R77: an array of wider integers is emitted in ascending index, each element low byte first. -/
def Obligations.ArraysAreEmittedInAscendingIndex : Prop :=
  (∀ (s : State) (vs : List (BitVec 16)), s.flt = none → s.pending = send (vs.map .put16) →
    runAll s = .next { s with
      pending := []
      out := s.out ++ vs.flatMap (le 2)
      responses := s.responses ++ vs.map (fun _ => .none) }) ∧
  (∀ (s : State) (vs : List (BitVec 32)), s.flt = none → s.pending = send (vs.map .put32) →
    runAll s = .next { s with
      pending := []
      out := s.out ++ vs.flatMap (le 4)
      responses := s.responses ++ vs.map (fun _ => .none) }) ∧
  ∀ v0 v1 v2 v3 v4 : BitVec 32, ([v0, v1, v2, v3, v4].flatMap (le 4)).length = 20

/-- R80: a text of ASCII characters is one byte a character, first character first, with no terminator; a fault on one
character stops the text there, and the earlier characters' bytes stay. -/
def Obligations.TextStopsAtTheFirstNonAsciiCharacter : Prop :=
  (∀ (s : State) (cs : List CodePoint), s.flt = none → (∀ c ∈ cs, c.toNat ≤ 0x7F) → s.pending = send (cs.map .putc) →
    runAll s = .next { s with
      pending := []
      out := s.out ++ cs.map (fun c => c.extractLsb' 0 8)
      responses := s.responses ++ cs.map (fun _ => .none) }) ∧
  (∀ (s : State) (cs : List CodePoint) (bad : CodePoint) (after : List CodePoint), s.flt = none →
    (∀ c ∈ cs, c.toNat ≤ 0x7F) → 0x80 ≤ bad.toNat → s.pending = send ((cs ++ bad :: after).map .putc) →
    ∃ t, runAll s = .next t ∧ t.flt = some .nonAscii ∧ t.out = s.out ++ cs.map fun c => c.extractLsb' 0 8)

/-- Derived (R70; two's complement is general knowledge in the spec and PRESUMED in notes/assumptions/16.md): a signed integer
in range is presented as x or x + 2^(8n). -/
def Obligations.SignedIntegersArePresentedInTwosComplement : Prop :=
  (∀ (n : Nat) (x : Int), n ∈ [1, 2, 4] → signedInRange n x →
    ((presentSigned n x).toNat : Int) = if 0 ≤ x then x else x + 2 ^ (8 * n)) ∧
  presentSigned 1 (-40) = 0xD8#8 ∧ presentSigned 1 50 = 0x32#8 ∧ presentSigned 1 127 = 0x7F#8 ∧
  presentSigned 1 (-1) = 0xFF#8 ∧ presentSigned 1 (-128) = 0x80#8

/-! ### The assembler (spec/30_encoding.md section 6) -/

/-- Derived (R39, R71; a negative operand is two's complement, notes/assumptions/16.md): a written command is assembled exactly
when its operand is the unsigned value of an operand of the width or, for the integer PUTs, its signed value; no other number
is reduced to fit. -/
def Obligations.AssemblerAcceptsExactlyTheOperandRanges : Prop :=
  (∀ (x : Int) (i : Instr), assemble (.c16upd x) = some i ↔ ∃ b : BitVec 8, i = .c16upd b ∧ x = b.toNat) ∧
  (∀ (x : Int) (i : Instr), assemble (.c32upd x) = some i ↔ ∃ b : BitVec 8, i = .c32upd b ∧ x = b.toNat) ∧
  (∀ (x : Int) (i : Instr), assemble (.c16chk x) = some i ↔ ∃ t : BitVec 16, i = .c16chk t ∧ x = t.toNat) ∧
  (∀ (x : Int) (i : Instr), assemble (.putc x) = some i ↔ ∃ cp : BitVec 21, i = .putc cp ∧ x = cp.toNat) ∧
  (∀ (x : Int) (i : Instr), assemble (.put8 x) = some i ↔ ∃ v : BitVec 8, i = .put8 v ∧ (x = v.toNat ∨ x = v.toInt)) ∧
  (∀ (x : Int) (i : Instr), assemble (.put16 x) = some i ↔ ∃ v : BitVec 16, i = .put16 v ∧ (x = v.toNat ∨ x = v.toInt)) ∧
  (∀ (x : Int) (i : Instr), assemble (.put32 x) = some i ↔ ∃ v : BitVec 32, i = .put32 v ∧ (x = v.toNat ∨ x = v.toInt))

/-- R41: the nine pseudo-commands expand to the listed commands, left to right. -/
def Obligations.PseudoCommandsExpandToTheListedCommands : Prop :=
  (∀ bs : List Byte, assembleAll (Pseudo.c16bytes (bs.map fun b => (b.toNat : Int))).expand = some (bs.map .c16upd)) ∧
  (∀ bs : List Byte, assembleAll (Pseudo.c32bytes (bs.map fun b => (b.toNat : Int))).expand = some (bs.map .c32upd)) ∧
  (∀ bs : List Byte, assembleAll (Pseudo.c16sum (bs.map fun b => (b.toNat : Int))).expand =
    some ([.c16init] ++ bs.map .c16upd ++ [.c16rd])) ∧
  (∀ bs : List Byte, assembleAll (Pseudo.c32sum (bs.map fun b => (b.toNat : Int))).expand =
    some ([.c32init] ++ bs.map .c32upd ++ [.c32rd])) ∧
  (∀ bs : List Byte, assembleAll (Pseudo.putbytes (bs.map fun b => (b.toNat : Int))).expand = some (bs.map .put8)) ∧
  (∀ vs : List (BitVec 8), assembleAll (Pseudo.putarr8 (vs.map fun v => (v.toNat : Int))).expand = some (vs.map .put8)) ∧
  (∀ vs : List (BitVec 16), assembleAll (Pseudo.putarr16 (vs.map fun v => (v.toNat : Int))).expand = some (vs.map .put16)) ∧
  (∀ vs : List (BitVec 32), assembleAll (Pseudo.putarr32 (vs.map fun v => (v.toNat : Int))).expand = some (vs.map .put32)) ∧
  (∀ cs : List CodePoint, assembleAll (Pseudo.putstr (cs.map fun c => (c.toNat : Int))).expand = some (cs.map .putc))
end

