-- ==== Sys2Proof/Laws/Crc.lean ====
section
/-! SUPPORT. Laws of Crc: one iteration is linear over exclusive or, and so are `n` of them; a value whose low bits are clear
is only shifted. -/

namespace Sys2Proof.Machine

variable {w : Nat}

theorem crcBit_xor (poly x y : BitVec w) : crcBit poly (x ^^^ y) = crcBit poly x ^^^ crcBit poly y := by
  unfold crcBit
  rw [BitVec.getLsbD_xor, BitVec.ushiftRight_xor_distrib]
  cases x.getLsbD 0 <;> cases y.getLsbD 0 <;> simp
  · ac_rfl
  · ac_rfl
  · rw [show x >>> 1 ^^^ poly ^^^ (y >>> 1 ^^^ poly) = x >>> 1 ^^^ y >>> 1 ^^^ (poly ^^^ poly) by ac_rfl,
      BitVec.xor_self, BitVec.xor_zero]

theorem crcBits_xor (poly : BitVec w) (n : Nat) (x y : BitVec w) :
    crcBits poly n (x ^^^ y) = crcBits poly n x ^^^ crcBits poly n y := by
  induction n generalizing x y with
  | zero => rfl
  | succ n ih => simp only [crcBits, crcBit_xor, ih]

/-- A value whose `n` low bits are 0 is shifted `n` places by `n` iterations (the corner cases of R45 and R58). -/
theorem crcBits_of_low_clear (poly : BitVec w) (n : Nat) (c : BitVec w) (h : ∀ i < n, c.getLsbD i = false) :
    crcBits poly n c = c >>> n := by
  induction n generalizing c with
  | zero => simp [crcBits]
  | succ n ih =>
    have h0 : crcBit poly c = c >>> 1 := by simp [crcBit, h 0 (Nat.succ_pos n)]
    rw [crcBits, h0, ih, BitVec.shiftRight_add _ 1 n |>.symm, Nat.add_comm]
    intro i hi
    rw [BitVec.getLsbD_ushiftRight]
    exact h (1 + i) (by omega)

end Sys2Proof.Machine
end

