-- ==== Sys2Proof/Laws/Decode.lean ====
section
/-! SUPPORT. Laws of Decode: when a row holds of a word built from its operation code and argument, and what the fields of
such a word are. -/

namespace Sys2Proof

/-- The comparison of a row of the opcode map, split into its operation code and the argument bits that must be 0. -/
theorem cmdWord_and_eq_iff (op p : BitVec 8) (arg zeros : BitVec 32) :
    cmdWord op arg &&& cmdWord 0xFF#8 zeros = cmdWord p 0#32 ↔ op = p ∧ arg &&& zeros = 0#32 := by
  have h : cmdWord op arg &&& cmdWord 0xFF#8 zeros = cmdWord op (arg &&& zeros) := by
    unfold cmdWord
    rw [BitVec.and_append]
    congr 1
    exact BitVec.and_allOnes
  rw [h]
  constructor
  · intro e
    have hi := congrArg (BitVec.extractLsb' 32 8) e
    have lo := congrArg (BitVec.extractLsb' 0 32) e
    simp only [cmdWord, BitVec.extractLsb'_append_eq_left, BitVec.extractLsb'_append_eq_right] at hi lo
    exact ⟨hi, lo⟩
  · rintro ⟨rfl, e⟩
    rw [e]

/-- A row whose mask fixes the whole operation code and the bits `zeros` of the argument. -/
theorem holds_cmdWord (op p : BitVec 8) (arg zeros : BitVec 32) (f : CmdWord → Instr) :
    Row.holds ⟨cmdWord p 0#32, cmdWord 0xFF#8 zeros, f⟩ (cmdWord op arg) = decide (op = p ∧ arg &&& zeros = 0#32) := by
  rw [Bool.eq_iff_iff, decide_eq_true_iff, ← cmdWord_and_eq_iff]
  simp [Row.holds]

@[simp] theorem opField_cmdWord (op : BitVec 8) (arg : BitVec 32) : opField (cmdWord op arg) = op := by
  simp only [opField, cmdWord, BitVec.extractLsb'_append_eq_left]

@[simp] theorem argField_cmdWord (op : BitVec 8) (arg : BitVec 32) : argField (cmdWord op arg) = arg := by
  simp only [argField, cmdWord, BitVec.extractLsb'_append_eq_right]

/-- Every word is its two fields (R33). -/
theorem cmdWord_fields (w : CmdWord) : cmdWord (opField w) (argField w) = w := by
  apply BitVec.eq_of_getLsbD_eq
  intro i hi
  simp only [cmdWord, opField, argField, BitVec.getLsbD_append, BitVec.getLsbD_extractLsb']
  split
  · simp [*]
  · have : 32 + (i - 32) = i := by omega
    simp [this, show i - 32 < 8 by omega]

/-- A widened operand has no bit above its width, so it meets a mask that has none below it in nothing. -/
theorem setWidth_and_eq_zero {n : Nat} (v : BitVec n) (zeros : BitVec 32) (h : ∀ i < n, zeros.getLsbD i = false) :
    v.setWidth 32 &&& zeros = 0#32 := by
  apply BitVec.eq_of_getLsbD_eq
  intro i hi
  by_cases hn : i < n
  · simp [h i hn]
  · simp [BitVec.getLsbD_of_ge v i (by omega)]

/-- The opcode map with each number written as its two fields. -/
theorem opcodeMap_eq : opcodeMap =
    [ ⟨cmdWord 0x10#8 0#32, cmdWord 0xFF#8 0xFFFFFFFF#32, fun _ => .c16init⟩,
      ⟨cmdWord 0x11#8 0#32, cmdWord 0xFF#8 0xFFFFFF00#32, fun w => .c16upd (w.extractLsb' 0 8)⟩,
      ⟨cmdWord 0x12#8 0#32, cmdWord 0xFF#8 0xFFFFFFFF#32, fun _ => .c16rd⟩,
      ⟨cmdWord 0x13#8 0#32, cmdWord 0xFF#8 0xFFFF0000#32, fun w => .c16chk (w.extractLsb' 0 16)⟩,
      ⟨cmdWord 0x20#8 0#32, cmdWord 0xFF#8 0xFFFFFFFF#32, fun _ => .c32init⟩,
      ⟨cmdWord 0x21#8 0#32, cmdWord 0xFF#8 0xFFFFFF00#32, fun w => .c32upd (w.extractLsb' 0 8)⟩,
      ⟨cmdWord 0x22#8 0#32, cmdWord 0xFF#8 0xFFFFFFFF#32, fun _ => .c32rd⟩,
      ⟨cmdWord 0x31#8 0#32, cmdWord 0xFF#8 0xFFFFFF00#32, fun w => .put8 (w.extractLsb' 0 8)⟩,
      ⟨cmdWord 0x32#8 0#32, cmdWord 0xFF#8 0xFFFF0000#32, fun w => .put16 (w.extractLsb' 0 16)⟩,
      ⟨cmdWord 0x34#8 0#32, cmdWord 0xFF#8 0x00000000#32, fun w => .put32 (w.extractLsb' 0 32)⟩,
      ⟨cmdWord 0x38#8 0#32, cmdWord 0xFF#8 0xFFE00000#32, fun w => .putc (w.extractLsb' 0 21)⟩ ] := rfl

/-- `decode` by the two fields of the word: everything it can answer, in the table's order. -/
theorem decode_fields (op arg) : decode (cmdWord op arg) =
    (if op = 0x10#8 ∧ arg = 0#32 then .command .c16init
     else if op = 0x11#8 ∧ arg &&& 0xFFFFFF00#32 = 0#32 then .command (.c16upd (arg.extractLsb' 0 8))
     else if op = 0x12#8 ∧ arg = 0#32 then .command .c16rd
     else if op = 0x13#8 ∧ arg &&& 0xFFFF0000#32 = 0#32 then .command (.c16chk (arg.extractLsb' 0 16))
     else if op = 0x20#8 ∧ arg = 0#32 then .command .c32init
     else if op = 0x21#8 ∧ arg &&& 0xFFFFFF00#32 = 0#32 then .command (.c32upd (arg.extractLsb' 0 8))
     else if op = 0x22#8 ∧ arg = 0#32 then .command .c32rd
     else if op = 0x31#8 ∧ arg &&& 0xFFFFFF00#32 = 0#32 then .command (.put8 (arg.extractLsb' 0 8))
     else if op = 0x32#8 ∧ arg &&& 0xFFFF0000#32 = 0#32 then .command (.put16 (arg.extractLsb' 0 16))
     else if op = 0x34#8 then .command (.put32 arg)
     else if op = 0x38#8 ∧ arg &&& 0xFFE00000#32 = 0#32 then .command (.putc (arg.extractLsb' 0 21))
     else .illegal (illegalWord (cmdWord op arg))) := by
  have hall : ∀ a : BitVec 32, a &&& 0xFFFFFFFF#32 = a := fun a => BitVec.and_allOnes
  have h0 : ∀ a : BitVec 32, a &&& 0#32 = 0#32 := fun a => BitVec.and_zero
  have e8 : (cmdWord op arg).extractLsb' 0 8 = arg.extractLsb' 0 8 := by
    rw [cmdWord, BitVec.extractLsb'_append_eq_of_add_le (by omega)]
  have e16 : (cmdWord op arg).extractLsb' 0 16 = arg.extractLsb' 0 16 := by
    rw [cmdWord, BitVec.extractLsb'_append_eq_of_add_le (by omega)]
  have e21 : (cmdWord op arg).extractLsb' 0 21 = arg.extractLsb' 0 21 := by
    rw [cmdWord, BitVec.extractLsb'_append_eq_of_add_le (by omega)]
  have e32 : (cmdWord op arg).extractLsb' 0 32 = arg := argField_cmdWord op arg
  simp only [decode, opcodeMap_eq, List.filter, holds_cmdWord, hall, h0, and_true]
  by_cases h1 : op = 0x10#8
  · subst h1; by_cases ha : arg = 0#32 <;> simp [ha]
  by_cases h2 : op = 0x11#8
  · subst h2; by_cases ha : arg &&& 0xFFFFFF00#32 = 0#32 <;> simp [ha, e8]
  by_cases h3 : op = 0x12#8
  · subst h3; by_cases ha : arg = 0#32 <;> simp [ha]
  by_cases h4 : op = 0x13#8
  · subst h4; by_cases ha : arg &&& 0xFFFF0000#32 = 0#32 <;> simp [ha, e16]
  by_cases h5 : op = 0x20#8
  · subst h5; by_cases ha : arg = 0#32 <;> simp [ha]
  by_cases h6 : op = 0x21#8
  · subst h6; by_cases ha : arg &&& 0xFFFFFF00#32 = 0#32 <;> simp [ha, e8]
  by_cases h7 : op = 0x22#8
  · subst h7; by_cases ha : arg = 0#32 <;> simp [ha]
  by_cases h8 : op = 0x31#8
  · subst h8; by_cases ha : arg &&& 0xFFFFFF00#32 = 0#32 <;> simp [ha, e8]
  by_cases h9 : op = 0x32#8
  · subst h9; by_cases ha : arg &&& 0xFFFF0000#32 = 0#32 <;> simp [ha, e16]
  by_cases h10 : op = 0x34#8
  · subst h10; simp [e32]
  by_cases h11 : op = 0x38#8
  · subst h11; by_cases ha : arg &&& 0xFFE00000#32 = 0#32 <;> simp [ha, e21]
  simp [h1, h2, h3, h4, h5, h6, h7, h8, h9, h10, h11]

/-- A widened operand gives its own bits back. -/
theorem extract_of_setWidth {n : Nat} (hn : n ≤ 32) (v : BitVec n) : (v.setWidth 32).extractLsb' 0 n = v := by
  apply BitVec.eq_of_getLsbD_eq
  intro i hi
  simp only [BitVec.getLsbD_extractLsb', BitVec.getLsbD_setWidth, hi, Nat.zero_add, decide_true, Bool.true_and]
  simp [show i < 32 by omega]

/-- An argument whose bits from `n` up are 0 is its low `n` bits, widened. -/
theorem setWidth_of_extract (n : Nat) (arg zeros : BitVec 32) (hz : ∀ i < 32, n ≤ i → zeros.getLsbD i = true)
    (h : arg &&& zeros = 0#32) : (arg.extractLsb' 0 n).setWidth 32 = arg := by
  apply BitVec.eq_of_getLsbD_eq
  intro i hi
  have := congrArg (fun x : BitVec 32 => x.getLsbD i) h
  simp only [BitVec.getLsbD_and, BitVec.getLsbD_setWidth, BitVec.getLsbD_extractLsb', BitVec.getLsbD_zero] at *
  by_cases hn : i < n
  · simp [hn, hi]
  · simp [hz i hi (by omega)] at this
    simp [hn, this]

end Sys2Proof
end

