-- ==== Sys2Proof/Laws/State.lean ====
section
/-! SUPPORT. Laws of State: one lemma for each field under each update, so that no later proof unfolds a record update. -/

namespace Sys2Proof.Machine

section Reset
variable (s : State)

@[simp] theorem State.reset_crc16 : State.reset.crc16 = none := rfl
@[simp] theorem State.reset_crc32 : State.reset.crc32 = none := rfl
@[simp] theorem State.reset_flt : State.reset.flt = none := rfl
@[simp] theorem State.reset_out : State.reset.out = [] := rfl
@[simp] theorem State.reset_pending : State.reset.pending = [] := rfl
@[simp] theorem State.reset_responses : State.reset.responses = [] := rfl

@[simp] theorem State.hostReset_crc16 : s.hostReset.crc16 = none := rfl
@[simp] theorem State.hostReset_crc32 : s.hostReset.crc32 = none := rfl
@[simp] theorem State.hostReset_flt : s.hostReset.flt = none := rfl
@[simp] theorem State.hostReset_out : s.hostReset.out = [] := rfl
@[simp] theorem State.hostReset_pending : s.hostReset.pending = s.pending := rfl
@[simp] theorem State.hostReset_responses : s.hostReset.responses = s.responses := rfl

end Reset

section Respond
variable (s : State) (r : Response)

@[simp] theorem State.respond_crc16 : (s.respond r).crc16 = s.crc16 := rfl
@[simp] theorem State.respond_crc32 : (s.respond r).crc32 = s.crc32 := rfl
@[simp] theorem State.respond_flt : (s.respond r).flt = s.flt := rfl
@[simp] theorem State.respond_out : (s.respond r).out = s.out := rfl
@[simp] theorem State.respond_pending : (s.respond r).pending = s.pending := rfl
@[simp] theorem State.respond_responses : (s.respond r).responses = s.responses ++ [r] := rfl

@[simp] theorem State.ignoreWord_crc16 : s.ignoreWord.crc16 = s.crc16 := rfl
@[simp] theorem State.ignoreWord_crc32 : s.ignoreWord.crc32 = s.crc32 := rfl
@[simp] theorem State.ignoreWord_flt : s.ignoreWord.flt = s.flt := rfl
@[simp] theorem State.ignoreWord_out : s.ignoreWord.out = s.out := rfl
@[simp] theorem State.ignoreWord_pending : s.ignoreWord.pending = s.pending := rfl
@[simp] theorem State.ignoreWord_responses : s.ignoreWord.responses = s.responses ++ [.none] := rfl

end Respond

section RaiseFault
variable (s : State) (code : FaultCode)

@[simp] theorem State.raiseFault_crc16 : (s.raiseFault code).crc16 = s.crc16 := rfl
@[simp] theorem State.raiseFault_crc32 : (s.raiseFault code).crc32 = s.crc32 := rfl
@[simp] theorem State.raiseFault_flt : (s.raiseFault code).flt = some code := rfl
@[simp] theorem State.raiseFault_out : (s.raiseFault code).out = s.out := rfl
@[simp] theorem State.raiseFault_pending : (s.raiseFault code).pending = s.pending := rfl
@[simp] theorem State.raiseFault_responses : (s.raiseFault code).responses = s.responses ++ [.none] := rfl

end RaiseFault

section Registers
variable (s : State) (v : BitVec 16) (u : BitVec 32)

@[simp] theorem State.setCrc16_crc16 : (s.setCrc16 v).crc16 = some v := rfl
@[simp] theorem State.setCrc16_crc32 : (s.setCrc16 v).crc32 = s.crc32 := rfl
@[simp] theorem State.setCrc16_flt : (s.setCrc16 v).flt = s.flt := rfl
@[simp] theorem State.setCrc16_out : (s.setCrc16 v).out = s.out := rfl
@[simp] theorem State.setCrc16_pending : (s.setCrc16 v).pending = s.pending := rfl
@[simp] theorem State.setCrc16_responses : (s.setCrc16 v).responses = s.responses := rfl

@[simp] theorem State.setCrc32_crc16 : (s.setCrc32 u).crc16 = s.crc16 := rfl
@[simp] theorem State.setCrc32_crc32 : (s.setCrc32 u).crc32 = some u := rfl
@[simp] theorem State.setCrc32_flt : (s.setCrc32 u).flt = s.flt := rfl
@[simp] theorem State.setCrc32_out : (s.setCrc32 u).out = s.out := rfl
@[simp] theorem State.setCrc32_pending : (s.setCrc32 u).pending = s.pending := rfl
@[simp] theorem State.setCrc32_responses : (s.setCrc32 u).responses = s.responses := rfl

end Registers

section Emit
variable (s : State) (n : Nat) {w : Nat} (v : BitVec w)

@[simp] theorem State.emit_crc16 : (s.emit n v).crc16 = s.crc16 := rfl
@[simp] theorem State.emit_crc32 : (s.emit n v).crc32 = s.crc32 := rfl
@[simp] theorem State.emit_flt : (s.emit n v).flt = s.flt := rfl
@[simp] theorem State.emit_out : (s.emit n v).out = s.out ++ le n v := rfl
@[simp] theorem State.emit_pending : (s.emit n v).pending = s.pending := rfl
@[simp] theorem State.emit_responses : (s.emit n v).responses = s.responses := rfl

end Emit

end Sys2Proof.Machine
end

