-- ==== Sys2Proof/Laws/Ops.lean ====
section
/-! SUPPORT. Laws of Ops: what each shared operation can do, said once. -/

namespace Sys2Proof.Machine

/-- `flt` set: nothing but the response `none` (R85). -/
theorem State.unlessFaulted_faulted {s : State} {f : FaultCode} (h : s.flt = some f) (effect : State → State) :
    s.unlessFaulted effect = s.ignoreWord := by
  simp [unlessFaulted, faulted, h]

/-- `flt` clear: the effect (R87). -/
theorem State.unlessFaulted_clear {s : State} (h : s.flt = none) (effect : State → State) :
    s.unlessFaulted effect = effect s := by
  simp [unlessFaulted, faulted, h]

theorem State.withCrc16_unwritten {s : State} (h : s.crc16 = none) (use : BitVec 16 → State → State) :
    s.withCrc16 use = s.raiseFault .uninit16 := by
  simp [withCrc16, h]

theorem State.withCrc16_written {s : State} {c : BitVec 16} (h : s.crc16 = some c) (use : BitVec 16 → State → State) :
    s.withCrc16 use = use c s := by
  simp [withCrc16, h]

theorem State.withCrc32_unwritten {s : State} (h : s.crc32 = none) (use : BitVec 32 → State → State) :
    s.withCrc32 use = s.raiseFault .uninit32 := by
  simp [withCrc32, h]

theorem State.withCrc32_written {s : State} {c : BitVec 32} (h : s.crc32 = some c) (use : BitVec 32 → State → State) :
    s.withCrc32 use = use c s := by
  simp [withCrc32, h]

/-- An ASCII character is one byte under either value of `PUTC_NONASCII` (R75). -/
theorem State.emitChar_ascii {cp : CodePoint} (h : cp.toNat ≤ 0x7F) (p : Config.PutcNonascii) (s : State) :
    s.emitChar p cp = (s.emit 1 (cp.extractLsb' 0 8)).respond .none := by
  simp [emitChar, h]

theorem State.emitChar_fault {cp : CodePoint} (h : ¬ cp.toNat ≤ 0x7F) (s : State) :
    s.emitChar .fault cp = s.raiseFault .nonAscii := by
  simp [emitChar, h]

/-- The alternative value of the parameter (R75, D22): bits 20:8 are dropped. -/
theorem State.emitChar_truncate (cp : CodePoint) (s : State) :
    s.emitChar .truncateLow8 cp = (s.emit 1 (cp.extractLsb' 0 8)).respond .none := by
  simp [emitChar]

/-- `LE` gives exactly as many bytes as its width (R78 (a)). -/
@[simp] theorem length_le (n : Nat) {w : Nat} (v : BitVec w) : (le n v).length = n := by
  simp [le]

/-- What one index of the stream reads after an emission: the old byte below the old end, the k-th byte of `LE` from there. -/
theorem State.outByte_emit (s : State) (n : Nat) {w : Nat} (v : BitVec w) (a : Nat) :
    (s.emit n v).outByte a = if a < s.out.length then s.outByte a else (le n v)[a - s.out.length]? := by
  simp only [outByte, emit_out, List.getElem?_append]

end Sys2Proof.Machine
end

