-- ==== Sys2Proof/Laws/Exec.lean ====
section
/-! SUPPORT. Laws of exec: everything a command can do, said once as a relation, and the inversion of `exec` into it. -/

namespace Sys2Proof.Machine

/-- What a command does from a state to a state: it is ignored (R85), it raises its own fault (R82), or it has its effect. -/
inductive Does : Instr → State → State → Prop where
  | ignored {s : State} (i : Instr) (f : FaultCode) (h : s.flt = some f) : Does i s s.ignoreWord
  | c16init {s : State} (h : s.flt = none) : Does .c16init s ((s.setCrc16 seed16).respond .none)
  | c16updUnwritten {s : State} (b : BitVec 8) (h : s.flt = none) (hc : s.crc16 = none) :
      Does (.c16upd b) s (s.raiseFault .uninit16)
  | c16upd {s : State} (b : BitVec 8) (c : BitVec 16) (h : s.flt = none) (hc : s.crc16 = some c) :
      Does (.c16upd b) s ((s.setCrc16 (step16 c b)).respond .none)
  | c16rdUnwritten {s : State} (h : s.flt = none) (hc : s.crc16 = none) : Does .c16rd s (s.raiseFault .uninit16)
  | c16rd {s : State} (c : BitVec 16) (h : s.flt = none) (hc : s.crc16 = some c) : Does .c16rd s (s.respond (.r16 (~~~c)))
  | c16chkUnwritten {s : State} (t : BitVec 16) (h : s.flt = none) (hc : s.crc16 = none) :
      Does (.c16chk t) s (s.raiseFault .uninit16)
  | c16chk {s : State} (t c : BitVec 16) (h : s.flt = none) (hc : s.crc16 = some c) :
      Does (.c16chk t) s (s.respond (.r1 (trailerVerdict c t)))
  | c32init {s : State} (h : s.flt = none) : Does .c32init s ((s.setCrc32 seed32).respond .none)
  | c32updUnwritten {s : State} (b : BitVec 8) (h : s.flt = none) (hc : s.crc32 = none) :
      Does (.c32upd b) s (s.raiseFault .uninit32)
  | c32upd {s : State} (b : BitVec 8) (c : BitVec 32) (h : s.flt = none) (hc : s.crc32 = some c) :
      Does (.c32upd b) s ((s.setCrc32 (step32 c b)).respond .none)
  | c32rdUnwritten {s : State} (h : s.flt = none) (hc : s.crc32 = none) : Does .c32rd s (s.raiseFault .uninit32)
  | c32rd {s : State} (c : BitVec 32) (h : s.flt = none) (hc : s.crc32 = some c) : Does .c32rd s (s.respond (.r32 (~~~c)))
  | put8 {s : State} (v : BitVec 8) (h : s.flt = none) : Does (.put8 v) s ((s.emit 1 v).respond .none)
  | put16 {s : State} (v : BitVec 16) (h : s.flt = none) : Does (.put16 v) s ((s.emit 2 v).respond .none)
  | put32 {s : State} (v : BitVec 32) (h : s.flt = none) : Does (.put32 v) s ((s.emit 4 v).respond .none)
  | putcNonAscii {s : State} (cp : BitVec 21) (h : s.flt = none) (hcp : ¬ cp.toNat ≤ 0x7F) :
      Does (.putc cp) s (s.raiseFault .nonAscii)
  | putc {s : State} (cp : BitVec 21) (h : s.flt = none) (hcp : cp.toNat ≤ 0x7F) :
      Does (.putc cp) s ((s.emit 1 (cp.extractLsb' 0 8)).respond .none)

/-- With `flt` set every meaning ignores its command (R85). -/
theorem exec_ignored (i : Instr) {s : State} {f : FaultCode} (h : s.flt = some f) : exec i s = .next s.ignoreWord := by
  cases i <;>
    simp only [exec, execC16init, execC16upd, execC16rd, execC16chk, execC32init, execC32upd, execC32rd, execPut8, execPut16,
      execPut32, execPutc, State.unlessFaulted_faulted h]

/-- The inversion of `exec`. -/
theorem does_of_exec {i : Instr} {s t : State} (e : exec i s = .next t) : Does i s t := by
  cases h : s.flt with
  | some f =>
    rw [exec_ignored i h] at e
    cases e
    exact .ignored i f h
  | none =>
    cases i with
    | c16init =>
      simp only [exec, execC16init, State.unlessFaulted_clear h] at e
      cases e
      exact .c16init h
    | c16upd b =>
      simp only [exec, execC16upd, State.unlessFaulted_clear h] at e
      cases hc : s.crc16 with
      | none => rw [State.withCrc16_unwritten hc] at e; cases e; exact .c16updUnwritten b h hc
      | some c => rw [State.withCrc16_written hc] at e; cases e; exact .c16upd b c h hc
    | c16rd =>
      simp only [exec, execC16rd, State.unlessFaulted_clear h] at e
      cases hc : s.crc16 with
      | none => rw [State.withCrc16_unwritten hc] at e; cases e; exact .c16rdUnwritten h hc
      | some c => rw [State.withCrc16_written hc] at e; cases e; exact .c16rd c h hc
    | c16chk x =>
      simp only [exec, execC16chk, State.unlessFaulted_clear h] at e
      cases hc : s.crc16 with
      | none => rw [State.withCrc16_unwritten hc] at e; cases e; exact .c16chkUnwritten x h hc
      | some c => rw [State.withCrc16_written hc] at e; cases e; exact .c16chk x c h hc
    | c32init =>
      simp only [exec, execC32init, State.unlessFaulted_clear h] at e
      cases e
      exact .c32init h
    | c32upd b =>
      simp only [exec, execC32upd, State.unlessFaulted_clear h] at e
      cases hc : s.crc32 with
      | none => rw [State.withCrc32_unwritten hc] at e; cases e; exact .c32updUnwritten b h hc
      | some c => rw [State.withCrc32_written hc] at e; cases e; exact .c32upd b c h hc
    | c32rd =>
      simp only [exec, execC32rd, State.unlessFaulted_clear h] at e
      cases hc : s.crc32 with
      | none => rw [State.withCrc32_unwritten hc] at e; cases e; exact .c32rdUnwritten h hc
      | some c => rw [State.withCrc32_written hc] at e; cases e; exact .c32rd c h hc
    | put8 v =>
      simp only [exec, execPut8, State.unlessFaulted_clear h] at e
      cases e
      exact .put8 v h
    | put16 v =>
      simp only [exec, execPut16, State.unlessFaulted_clear h] at e
      cases e
      exact .put16 v h
    | put32 v =>
      simp only [exec, execPut32, State.unlessFaulted_clear h] at e
      cases e
      exact .put32 v h
    | putc cp =>
      simp only [exec, execPutc, State.unlessFaulted_clear h, Config.putcNonascii] at e
      by_cases hcp : cp.toNat ≤ 0x7F
      · rw [State.emitChar_ascii hcp] at e; cases e; exact .putc cp h hcp
      · rw [State.emitChar_fault hcp] at e; cases e; exact .putcNonAscii cp h hcp

end Sys2Proof.Machine
end

