-- ==== Sys2Proof/Laws/PerInstr.lean ====
section
/-! SUPPORT. Laws per instruction: the family `OneRow`: the word of a command satisfies exactly one row of the opcode map
(R35: "the rows' conditions are mutually exclusive"). -/

namespace Sys2Proof.Laws.OneRow

/-- R35, R42: exactly one row holds of the word the encoder gives. -/
abbrev Statement (i : Instr) : Prop := (opcodeMap.filter fun r => r.holds (encode i)).length = 1

theorem c16init : Statement .c16init := by decide

theorem c16upd (b : BitVec 8) : Statement (.c16upd b) := by
  simp [Statement, encode, opcodeMap_eq, List.filter, holds_cmdWord, setWidth_and_eq_zero b 0xFFFFFF00#32 (by decide)]

theorem c16rd : Statement .c16rd := by decide

theorem c16chk (t : BitVec 16) : Statement (.c16chk t) := by
  simp [Statement, encode, opcodeMap_eq, List.filter, holds_cmdWord, setWidth_and_eq_zero t 0xFFFF0000#32 (by decide)]

theorem c32init : Statement .c32init := by decide

theorem c32upd (b : BitVec 8) : Statement (.c32upd b) := by
  simp [Statement, encode, opcodeMap_eq, List.filter, holds_cmdWord, setWidth_and_eq_zero b 0xFFFFFF00#32 (by decide)]

theorem c32rd : Statement .c32rd := by decide

theorem put8 (v : BitVec 8) : Statement (.put8 v) := by
  simp [Statement, encode, opcodeMap_eq, List.filter, holds_cmdWord, setWidth_and_eq_zero v 0xFFFFFF00#32 (by decide)]

theorem put16 (v : BitVec 16) : Statement (.put16 v) := by
  simp [Statement, encode, opcodeMap_eq, List.filter, holds_cmdWord, setWidth_and_eq_zero v 0xFFFF0000#32 (by decide)]

theorem put32 (v : BitVec 32) : Statement (.put32 v) := by
  simp [Statement, encode, opcodeMap_eq, List.filter, holds_cmdWord]

theorem putc (cp : BitVec 21) : Statement (.putc cp) := by
  simp [Statement, encode, opcodeMap_eq, List.filter, holds_cmdWord, setWidth_and_eq_zero cp 0xFFE00000#32 (by decide)]

end Sys2Proof.Laws.OneRow
end

