-- ==== Sys2Proof/Laws/Step.lean ====
section
/-! SUPPORT. Laws of step: everything a step can do, said once. -/

namespace Sys2Proof.Machine

/-- What a step does: nothing was pending (R7); the reset event (R94); a word that is ignored (R85), illegal (R36, R37) or a
command (R87). -/
inductive Steps (s t : State) : Prop where
  | idle (hp : s.pending = []) (ht : t = s)
  | reset (rest : List HostEvent) (hp : s.pending = .reset :: rest) (ht : t = State.hostReset { s with pending := rest })
  | ignored (w : CmdWord) (rest : List HostEvent) (f : FaultCode) (hp : s.pending = .command w :: rest)
      (h : s.flt = some f) (ht : t = State.ignoreWord { s with pending := rest })
  | illegal (w : CmdWord) (rest : List HostEvent) (why : IllegalWord) (hp : s.pending = .command w :: rest)
      (h : s.flt = none) (hd : decode w = .illegal why) (ht : t = State.raiseFault .illegalCmd { s with pending := rest })
  | command (w : CmdWord) (rest : List HostEvent) (i : Instr) (hp : s.pending = .command w :: rest)
      (h : s.flt = none) (hd : decode w = .command i) (hdoes : Does i { s with pending := rest } t)

/-- The inversion of `step`. -/
theorem steps_of_step {s t : State} (e : step s = .next t) : Steps s t := by
  unfold step hostStep at e
  split at e
  next hp => cases e; exact .idle hp rfl
  next ev rest hp =>
    cases ev with
    | reset => cases e; exact .reset rest hp rfl
    | command w =>
      have hf : State.faulted { s with pending := rest } = s.flt.isSome := rfl
      simp only [hostEvent, issueWord, hf] at e
      cases h : s.flt with
      | some f =>
        rw [if_pos (by simp [h])] at e
        cases e
        exact .ignored w rest f hp h rfl
      | none =>
        rw [if_neg (by simp [h])] at e
        split at e
        next why hd => cases e; exact .illegal w rest why hp h hd rfl
        next i hd => exact .command w rest i hp h hd (does_of_exec e)

end Sys2Proof.Machine
end

