-- ==== Sys2Proof/Laws/Run.lean ====
section
/-! SUPPORT. Laws of a run: a run is one step and the run of the state it gives, and what a command leaves pending. -/

namespace Sys2Proof.Machine

theorem run_succ {s t : State} (k : Nat) (h : step s = .next t) :
    Host.Core.run core (k + 1) s = Host.Core.run core k t := by
  have h' : core.step s = .next t := h
  exact (Host.Core.run.eq_def core (k + 1) s).trans (by simp [h'])

/-- With nothing pending the run is over. -/
theorem runAll_nil {s : State} (h : s.pending = []) : runAll s = .next s := by
  unfold runAll
  rw [h]
  rfl

/-- A run takes the first event by one step. -/
theorem runAll_cons {s t : State} {e : HostEvent} {rest : List HostEvent} (h : s.pending = e :: rest)
    (hs : step s = .next t) (ht : t.pending = rest) : runAll s = runAll t := by
  unfold runAll
  rw [h, List.length_cons, run_succ _ hs, ht]

/-- No command touches what the host has yet to send. -/
theorem Does.pending_eq {i : Instr} {s t : State} (h : Does i s t) : t.pending = s.pending := by
  cases h <;> rfl

/-- Every command is answered by one response (R40). -/
theorem Does.responses_eq {i : Instr} {s t : State} (h : Does i s t) : ∃ r, t.responses = s.responses ++ [r] := by
  cases h <;> exact ⟨_, rfl⟩

end Sys2Proof.Machine
end

