-- ==== Sys2Proof/Tests/Slice0.lean ====
section
/-! SUPPORT. Tests: words written out from R33 and R35, the vectors of spec/95_test_vectors.md on one step each, an ill-formed
term for each check of Sys2Proof/WellFormed.lean, and for each statement with hypotheses a state that meets them. Expected
values are the spec's (the vector's name is in the comment). -/

namespace Sys2Proof.Tests

open Sys2Proof.Machine

/-- The state an outcome gives. -/
def stateOf : Host.Outcome State Fault Refusal → Option State
  | .next s => some s
  | .fault _ => none
  | .refused _ => none

/-- A state with both units started, one byte emitted and nothing pending. -/
def started : State :=
  { crc16 := some 0xFFFF#16, crc32 := some 0xFFFFFFFF#32, flt := none, out := [0x41#8], pending := [], responses := [] }

/-- A state with a fault recorded. -/
def stopped : State := { started with flt := some .nonAscii }

/-! ### Decoding: a word of each row written bit by bit (op, then the argument) -/

theorem test_decode_c16init : decode 0b0001000000000000000000000000000000000000#40 = .command .c16init := by decide
theorem test_decode_c16upd : decode 0b0001000100000000000000000000000010000001#40 = .command (.c16upd 0x81#8) := by decide
theorem test_decode_c16rd : decode 0b0001001000000000000000000000000000000000#40 = .command .c16rd := by decide
theorem test_decode_c16chk : decode 0b0001001100000000000000001000000000000010#40 = .command (.c16chk 0x8002#16) := by decide
theorem test_decode_c32init : decode 0b0010000000000000000000000000000000000000#40 = .command .c32init := by decide
theorem test_decode_c32upd : decode 0b0010000100000000000000000000000011000000#40 = .command (.c32upd 0xC0#8) := by decide
theorem test_decode_c32rd : decode 0b0010001000000000000000000000000000000000#40 = .command .c32rd := by decide
theorem test_decode_put8 : decode 0b0011000100000000000000000000000010000000#40 = .command (.put8 0x80#8) := by decide
theorem test_decode_put16 : decode 0b0011001000000000000000000000000010111110#40 = .command (.put16 190#16) := by decide
theorem test_decode_put32 : decode 0b0011010010000000000000000000000000000001#40 = .command (.put32 0x80000001#32) := by decide
theorem test_decode_putc : decode 0b0011100000000000000100000000000000000000#40 = .command (.putc 0x100000#21) := by decide

/-- VD-1, VD-2, VD-10, VD-12, VD-15: unassigned operation codes. -/
theorem test_decode_unassigned :
    [0x0000000000#40, 0xFFFFFFFFFF#40, 0x1400000000#40, 0x2300000000#40, 0x3300000000#40].map decode =
    [.illegal .unassignedOp, .illegal .unassignedOp, .illegal .unassignedOp, .illegal .unassignedOp,
      .illegal .unassignedOp] := by decide

/-- VD-4, VD-6, VD-7, VD-9, VD-18: a bit that must be 0 is 1, in each format that has one. -/
theorem test_decode_stray_bits :
    [0x1000000001#40, 0x1100000100#40, 0x1100000131#40, 0x1300010000#40, 0x3800200000#40].map decode =
    [.illegal .mustBeZeroBitSet, .illegal .mustBeZeroBitSet, .illegal .mustBeZeroBitSet, .illegal .mustBeZeroBitSet,
      .illegal .mustBeZeroBitSet] := by decide

/-- VD-16, VD-17, VD-8: every bit of the operand set. -/
theorem test_decode_full_operands :
    [0x34FFFFFFFF#40, 0x38001FFFFF#40, 0x130000FFFF#40].map decode =
    [.command (.put32 0xFFFFFFFF#32), .command (.putc 0x1FFFFF#21), .command (.c16chk 0xFFFF#16)] := by decide

/-- The numbers the host asks with, and one with a bit above the word. -/
theorem test_decode_table_word :
    decodeTableWord 40 0x13FFFF0000 = none ∧ decodeTableWord 40 0x130000B5C3 = some (.c16chk 0xB5C3#16) ∧
    decodeTableWord 48 (2 ^ 40 + 0x1000000000) = none := by decide

/-- The word placed is the command the next step runs. -/
theorem test_fetch_word_runs :
    stateOf (step (State.reset.withFetchWord 40 0x3200000102)) =
      some { State.reset with out := [0x02#8, 0x01#8], responses := [.none] } := by decide

/-! ### WellFormed: an ill-formed term for each check (R39), beside a well-formed one at the end of its range -/

theorem test_illformed_c16upd : (Source.c16upd 256).wellFormed = false ∧ (Source.c16upd (-1)).wellFormed = false := by decide
theorem test_illformed_c32upd : (Source.c32upd 256).wellFormed = false ∧ (Source.c32upd (-1)).wellFormed = false := by decide
theorem test_illformed_c16chk : (Source.c16chk 65536).wellFormed = false ∧ (Source.c16chk (-1)).wellFormed = false := by decide
theorem test_illformed_put8 : (Source.put8 256).wellFormed = false ∧ (Source.put8 (-129)).wellFormed = false := by decide
theorem test_illformed_put16 : (Source.put16 65536).wellFormed = false ∧ (Source.put16 (-32769)).wellFormed = false := by decide
theorem test_illformed_put32 :
    (Source.put32 4294967296).wellFormed = false ∧ (Source.put32 (-2147483649)).wellFormed = false := by decide
theorem test_illformed_putc : (Source.putc 0x200000).wellFormed = false ∧ (Source.putc (-1)).wellFormed = false := by decide
theorem test_wellformed_ends :
    (Source.c16upd 255).wellFormed ∧ (Source.c16chk 65535).wellFormed ∧ (Source.put8 (-128)).wellFormed ∧
    (Source.put16 (-32768)).wellFormed ∧ (Source.put32 4294967295).wellFormed ∧ (Source.putc 0x1FFFFF).wellFormed := by decide

/-! ### Arithmetic (95_test_vectors.md sections 2.1 to 2.5, 2.7) -/

/-- V16-s4, s7, s9, s11, s12, s13. -/
theorem test_step16_vectors :
    step16 0x0000#16 0xFF#8 = 0x0F78#16 ∧ step16 0x8000#16 0x00#8 = 0x0080#16 ∧ step16 0xFFFF#16 0xFF#8 = 0x00FF#16 ∧
    step16 0x2F8D#16 0x32#8 = 0x4D53#16 ∧ step16 0x1234#16 0x56#8 = 0x4006#16 ∧ step16 0x8408#16 0x00#8 = 0x8CCC#16 := by
  decide

/-- V32-s4, s7, s9, s11, s12, s13. -/
theorem test_step32_vectors :
    step32 0x00000000#32 0xFF#8 = 0x2D02EF8D#32 ∧ step32 0x80000000#32 0x00#8 = 0x00800000#32 ∧
    step32 0xFFFFFFFF#32 0xFF#8 = 0x00FFFFFF#32 ∧ step32 0x7C231048#32 0x32#8 = 0xB0ACBB32#32 ∧
    step32 0x12345678#32 0x9A#8 = 0x4E16B702#32 ∧ step32 0xEDB88320#32 0x00#8 = 0x3B83984B#32 := by decide

/-- V16-7, V16-7r, V16-10: order matters, and a running value can be 0. -/
theorem test_run16_vectors :
    fin16 [0x31#8, 0x32#8] = 0xB2AC#16 ∧ fin16 [0x32#8, 0x31#8] = 0xAA5F#16 ∧ run16 seed16 [0xFF#8, 0xFF#8] = 0x0000#16 := by
  decide +kernel

/-- V32-7, V32-11. -/
theorem test_run32_vectors :
    fin32 [0x31#8, 0x32#8] = 0x4F5344CD#32 ∧ run32 seed32 [0xFF#8, 0xFF#8] = 0x0000FFFF#32 := by
  decide +kernel

/-- VS-6b, VS-7, VS-10b. -/
theorem test_le_vectors :
    le 2 0x00FF#16 = [0xFF#8, 0x00#8] ∧ le 2 0xFF00#16 = [0x00#8, 0xFF#8] ∧
    le 4 0x07FFF800#32 = [0x00#8, 0xF8#8, 0xFF#8, 0x07#8] ∧ le 4 0x80000000#32 = [0x00#8, 0x00#8, 0x00#8, 0x80#8] := by
  decide

/-! ### One step of each command (sections 2.3, 2.6, 2.7, 2.9) -/

/-- V16-c4: INIT in the middle of a message discards it. -/
theorem test_c16init_discards :
    stateOf (exec .c16init { started with crc16 := some 0x2F8D#16 }) = some { started with responses := [.none] } := by decide

/-- V16-c2, first byte; V16-c6. -/
theorem test_c16upd_steps :
    stateOf (exec (.c16upd 0x31#8) started) = some { started with crc16 := some 0x2F8D#16, responses := [.none] } := by decide
theorem test_c16upd_unwritten :
    stateOf (exec (.c16upd 0x31#8) State.reset) = some { State.reset with flt := some .uninit16, responses := [.none] } := by
  decide

/-- V16-c2, read; V16-c9: starting C32 does not start C16. -/
theorem test_c16rd_answers :
    stateOf (exec .c16rd { started with crc16 := some 0x2F8D#16 }) =
      some { started with crc16 := some 0x2F8D#16, responses := [.r16 0xD072#16] } := by decide
theorem test_c16rd_needs_its_own_init :
    stateOf (exec .c16rd { started with crc16 := none }) =
      some { started with crc16 := none, flt := some .uninit16, responses := [.none] } := by decide

/-- V16-13: match, and the swapped trailer. -/
theorem test_c16chk_match :
    stateOf (exec (.c16chk 0xB5C3#16) { started with crc16 := some 0x4A3C#16 }) =
      some { started with crc16 := some 0x4A3C#16, responses := [.r1 1#1] } := by decide
theorem test_c16chk_swapped :
    stateOf (exec (.c16chk 0xC3B5#16) { started with crc16 := some 0x4A3C#16 }) =
      some { started with crc16 := some 0x4A3C#16, responses := [.r1 0#1] } := by decide

/-- V32-c3. -/
theorem test_c32init_discards :
    stateOf (exec .c32init { started with crc32 := some 0x7C231048#32 }) = some { started with responses := [.none] } := by
  decide

/-- V32-c2, first byte; V32-c6: starting C16 does not start C32. -/
theorem test_c32upd_steps :
    stateOf (exec (.c32upd 0x31#8) started) = some { started with crc32 := some 0x7C231048#32, responses := [.none] } := by
  decide
theorem test_c32upd_unwritten :
    stateOf (exec (.c32upd 0x00#8) { started with crc32 := none }) =
      some { started with crc32 := none, flt := some .uninit32, responses := [.none] } := by decide

/-- V32-c2, read; V32-c5. -/
theorem test_c32rd_answers :
    stateOf (exec .c32rd { started with crc32 := some 0x7C231048#32 }) =
      some { started with crc32 := some 0x7C231048#32, responses := [.r32 0x83DCEFB7#32] } := by decide
theorem test_c32rd_unwritten :
    stateOf (exec .c32rd State.reset) = some { State.reset with flt := some .uninit32, responses := [.none] } := by decide

/-- VS-4, VS-6, VS-9, after a byte that is already there. -/
theorem test_put8_appends :
    stateOf (exec (.put8 0xD8#8) started) = some { started with out := [0x41#8, 0xD8#8], responses := [.none] } := by decide
theorem test_put16_appends :
    stateOf (exec (.put16 0xB5C3#16) started) =
      some { started with out := [0x41#8, 0xC3#8, 0xB5#8], responses := [.none] } := by decide
theorem test_put32_appends :
    stateOf (exec (.put32 0xCBF43926#32) started) =
      some { started with out := [0x41#8, 0x26#8, 0x39#8, 0xF4#8, 0xCB#8], responses := [.none] } := by decide

/-- VS-16, VS-19: the last ASCII code point, and one whose low byte is 'A'. -/
theorem test_putc_ascii :
    stateOf (exec (.putc 0x7F#21) started) = some { started with out := [0x41#8, 0x7F#8], responses := [.none] } := by decide
theorem test_putc_nonascii :
    stateOf (exec (.putc 0x141#21) started) = some { started with flt := some .nonAscii, responses := [.none] } := by decide

/-- VF-3, VF-5: the first fault stays; an illegal word does not update. -/
theorem test_illegal_word_ignored_after_fault :
    stateOf (step { stopped with pending := [.command 0x0000000000#40] }) = some { stopped with responses := [.none] } := by
  decide
theorem test_illegal_word_faults :
    stateOf (step { started with pending := [.command 0x1100000131#40] }) =
      some { started with flt := some .illegalCmd, responses := [.none] } := by decide

/-- VF-6, VF-7: the reset event. -/
theorem test_reset_event :
    stateOf (step { stopped with pending := [.reset, .command 0x3100000003#40] }) =
      some { State.reset with pending := [.command 0x3100000003#40] } := by decide

/-! ### The assembler (section 2.7, R39, R41) -/

/-- VS-4: `PUT8 -40 ; dBm`. -/
theorem test_line_put8 :
    (readLine ['P', 'U', 'T', '8', ' ', '-', '4', '0', ' ', ';', ' ', 'd', 'B', 'm']).bind assembleAll = some [.put8 0xD8#8] := by
  decide
/-- VS-5 with the operand in hexadecimal. -/
theorem test_line_put16 :
    (readLine ['P', 'U', 'T', '1', '6', ' ', '0', 'x', 'B', 'E']).bind assembleAll = some [.put16 190#16] := by decide
/-- VS-13. -/
theorem test_line_putc :
    (readLine ['P', 'U', 'T', 'C', ' ', Char.ofNat 39, 'A', Char.ofNat 39]).bind assembleAll = some [.putc 0x41#21] := by decide
/-- VS-20: the empty text. -/
theorem test_line_putstr_empty :
    (readLine ['P', 'U', 'T', 'S', 'T', 'R', ' ', Char.ofNat 34, Char.ofNat 34]).bind assembleAll = some [] := by decide
/-- VS-11. -/
theorem test_line_putarr32 :
    (readLine ['P', 'U', 'T', 'A', 'R', 'R', '3', '2', ' ', '1', ' ', '2']).bind assembleAll =
      some [.put32 1#32, .put32 2#32] := by decide
/-- R39: a mnemonic is in capitals; an operand out of range is rejected; `C16UPD` takes no minus sign. -/
theorem test_line_rejected :
    readLine ['p', 'u', 't', '8', ' ', '1'] = none ∧
    (readLine ['P', 'U', 'T', '8', ' ', '2', '5', '6']).bind assembleAll = none ∧
    readLine ['C', '1', '6', 'U', 'P', 'D', ' ', '-', '1'] = none := by decide

/-! ### Witnesses: states and operands that meet the hypotheses of the statements -/

/-- `NothingIssuedNothingChanges`, and the premise of the step statements below that nothing is recorded. -/
theorem test_witness_idle : started.pending = [] ∧ started.flt = none := by decide

/-- `UnwrittenRegistersHoldNoValue`: a step that writes `crc16`, one that writes `crc32`, and the two faulting clauses. -/
theorem test_witness_unwritten16 : ∃ t, step { State.reset with pending := [.command 0x1000000000#40] } = .next t ∧
    State.reset.crc16 = none ∧ t.crc16 ≠ none := ⟨_, rfl, rfl, by decide⟩
theorem test_witness_unwritten32 : ∃ t, step { State.reset with pending := [.command 0x2000000000#40] } = .next t ∧
    State.reset.crc32 = none ∧ t.crc32 ≠ none := ⟨_, rfl, rfl, by decide⟩
theorem test_witness_unwritten_reads : State.reset.flt = none ∧ State.reset.crc16 = none ∧ State.reset.crc32 = none := by decide

/-- `OnlyResetClearsWhatResetClears`, `ResetEventKeepsOnlyTheHostsLists`: a reset with everything set, and another step. -/
theorem test_witness_reset : ∃ s : State, s.pending = .reset :: [] ∧ s.flt ≠ none :=
  ⟨{ stopped with pending := [.reset] }, rfl, by decide⟩
theorem test_witness_no_reset : ∃ s t : State, step s = .next t ∧ (∀ rest, s.pending ≠ .reset :: rest) ∧
    s.flt ≠ none ∧ s.crc16 ≠ none ∧ s.crc32 ≠ none :=
  ⟨{ stopped with pending := [.command 0x1000000000#40] }, _, rfl, by simp, by decide, by decide, by decide⟩

/-- `EqualRegistersBehaveAlike`: two states that differ in `out` and `responses`. -/
theorem test_witness_alike : ∃ t₁ t₂,
    runAll { started with pending := [0x1200000000#40, 0x3100000007#40].map .command } = .next t₁ ∧
    runAll { started with out := [], responses := [.none],
                          pending := [0x1200000000#40, 0x3100000007#40].map .command } = .next t₂ := ⟨_, _, rfl, rfl⟩

/-- `StepRunsTheDecodedCommand`, `ChecksAreMadeInOrder` (3) and (4): a command whose own test fails and one whose test passes. -/
theorem test_witness_step :
    started.flt = none ∧ decode 0x3800000080#40 = .command (.putc 0x80#21) ∧ ownTest (.putc 0x80#21) started = some .nonAscii ∧
    decode 0x380000007F#40 = .command (.putc 0x7F#21) ∧ ownTest (.putc 0x7F#21) started = none := by decide
/-- `ChecksAreMadeInOrder` (1) and (2). -/
theorem test_witness_order : stopped.flt ≠ none ∧ ∀ i, decode 0x1000000001#40 ≠ .command i := by
  refine ⟨by decide, fun i => ?_⟩
  rw [show decode 0x1000000001#40 = .illegal .mustBeZeroBitSet by decide]
  simp

/-- `FaultCausesAreExactlyTheFour`, `FaultingWordHasNoPartialEffect`: a word that raises each code. -/
theorem test_witness_illegal : ∃ t, issueWord 0x1000000001#40 started = .next t ∧ t.flt = some .illegalCmd := ⟨_, rfl, rfl⟩
theorem test_witness_uninit16 : ∃ t, issueWord 0x1200000000#40 State.reset = .next t ∧ t.flt = some .uninit16 := ⟨_, rfl, rfl⟩
theorem test_witness_uninit32 : ∃ t, issueWord 0x2200000000#40 State.reset = .next t ∧ t.flt = some .uninit32 := ⟨_, rfl, rfl⟩
theorem test_witness_nonascii : ∃ t, issueWord 0x3800000080#40 started = .next t ∧ t.flt = some .nonAscii := ⟨_, rfl, rfl⟩

/-- `FaultedBlockIgnoresEveryWord`: a legal and an illegal word. -/
theorem test_witness_faulted :
    stopped.flt ≠ none ∧
    ∃ s : State, s.flt ≠ none ∧ s.pending = [0x1000000000#40, 0#40].map .command :=
  ⟨by decide, { stopped with pending := [.command 0x1000000000#40, .command 0#40] }, by decide, rfl⟩

/-- `OneResponseOfItsKindForEachWord`, inner clauses: each reading command with its register written. -/
theorem test_witness_responses :
    decode 0x1200000000#40 = .command .c16rd ∧ decode 0x2200000000#40 = .command .c32rd ∧
    decode 0x1300000000#40 = .command (.c16chk 0#16) ∧ started.crc16 = some 0xFFFF#16 := by decide

/-- `EveryStepCompletesOneEvent`: a command and a reset event at the head of the list. -/
theorem test_witness_events : ∃ s u : State, s.pending = .command 0#40 :: [.reset] ∧ u.pending = .reset :: [] :=
  ⟨{ started with pending := [.command 0#40, .reset] }, { started with pending := [.reset] }, rfl, rfl⟩

/-- `StepKeepsUninitMatchingUnwritten`: the invariant with each code recorded, and a step from there. -/
theorem test_witness_invariant :
    FaultMatchesState { State.reset with flt := some .uninit16 } ∧ FaultMatchesState { State.reset with flt := some .uninit32 } ∧
    ∃ t, step { State.reset with flt := some .uninit16, pending := [.command 0x1000000000#40] } = .next t :=
  ⟨by decide, by decide, _, rfl⟩

/-- `EncodeOfDecodeIsTheWord`. -/
theorem test_witness_decoded : decode 0x38001FFFFF#40 = .command (.putc 0x1FFFFF#21) := by decide

/-- `UnassignedOrStrayBitsAreIllegal`: a word for each of the five clauses, at the lowest bit that must be 0. -/
theorem test_witness_unassigned : (0x3900000000#40).extractLsb' 32 8 ∉
    [0x10#8, 0x11#8, 0x12#8, 0x13#8, 0x20#8, 0x21#8, 0x22#8, 0x31#8, 0x32#8, 0x34#8, 0x38#8] := by decide
theorem test_witness_stray_z :
    (0x2200000001#40).extractLsb' 32 8 ∈ [0x10#8, 0x12#8, 0x20#8, 0x22#8] ∧ (0x2200000001#40).extractLsb' 0 32 ≠ 0#32 := by decide
theorem test_witness_stray_b :
    (0x3100000100#40).extractLsb' 32 8 ∈ [0x11#8, 0x21#8, 0x31#8] ∧ (0x3100000100#40).extractLsb' 8 24 ≠ 0#24 := by decide
theorem test_witness_stray_h :
    (0x3200010000#40).extractLsb' 32 8 ∈ [0x13#8, 0x32#8] ∧ (0x3200010000#40).extractLsb' 16 16 ≠ 0#16 := by decide
theorem test_witness_stray_p :
    (0x3800200000#40).extractLsb' 32 8 = 0x38#8 ∧ (0x3800200000#40).extractLsb' 21 11 ≠ 0#11 := by decide

/-- `Step16IsLinearTabulatedAndInjective`, `Step32IsLinearTabulatedAndInjective`: equal results (of equal running values). -/
theorem test_witness_injective :
    step16 0x8000#16 0x00#8 = step16 0x8000#16 0x00#8 ∧ step32 0x80000000#32 0x00#8 = step32 0x80000000#32 0x00#8 := by decide

/-- The statements of the C16 and C32 commands and of SER: written registers with `flt` clear, unwritten ones, and `flt` set. -/
theorem test_witness_commands :
    started.flt = none ∧ started.crc16 = some 0xFFFF#16 ∧ started.crc32 = some 0xFFFFFFFF#32 ∧
    State.reset.flt = none ∧ State.reset.crc16 = none ∧ State.reset.crc32 = none ∧ stopped.flt ≠ none := by decide
/-- `C16InitLoadsTheSeed` and `C32InitLoadsTheSeed`, last clause. -/
theorem test_witness_init : ∃ t u, exec .c16init State.reset = .next t ∧ exec .c32init State.reset = .next u := ⟨_, _, rfl, rfl⟩
/-- `PutcAppendsAsciiAndFaultsAbove`: the two code points where its clauses meet. -/
theorem test_witness_putc : (0x7F#21).toNat ≤ 0x7F ∧ 0x80 ≤ (0x80#21).toNat := by decide

/-- `Crc16HoldsTheRunOfItsMessage`, `C16TouchesOnlyItsOwnState` (3), `Crc32HoldsTheRunOfItsMessage`,
`C32TouchesOnlyItsOwnState` (3): commands of three units run without a fault from an unwritten block, and from a message begun. -/
theorem test_witness_run : ∃ t,
    runAll { State.reset with pending := send [.c16init, .c32init, .put8 0x31#8, .c16upd 0x31#8, .c32upd 0x31#8] } = .next t ∧
    State.reset.flt = none ∧ State.reset.crc16 = Option.map (run16 0xFFFF#16) none ∧
    State.reset.crc32 = Option.map (run32 0xFFFFFFFF#32) none ∧ t.flt = none := ⟨_, rfl, rfl, rfl, rfl, rfl⟩
theorem test_witness_run_begun : ∃ t, runAll { started with pending := send [.c16upd 0x31#8, .c32upd 0x31#8] } = .next t ∧
    started.crc16 = Option.map (run16 0xFFFF#16) (some []) ∧ started.crc32 = Option.map (run32 0xFFFFFFFF#32) (some []) ∧
    t.flt = none := ⟨_, rfl, rfl, rfl, rfl⟩
/-- `C16TouchesOnlyItsOwnState` (4), `C32TouchesOnlyItsOwnState` (4): two states that differ outside the unit. -/
theorem test_witness_agree16 : ∃ t t', started.crc16 = { started with crc32 := none, out := [] }.crc16 ∧
    started.flt = { started with crc32 := none, out := [] }.flt ∧ exec .c16rd started = .next t ∧
    exec .c16rd { started with crc32 := none, out := [] } = .next t' := ⟨_, _, rfl, rfl, rfl, rfl⟩
theorem test_witness_agree32 : ∃ t t', started.crc32 = { started with crc16 := none, out := [] }.crc32 ∧
    started.flt = { started with crc16 := none, out := [] }.flt ∧ exec .c32rd started = .next t ∧
    exec .c32rd { started with crc16 := none, out := [] } = .next t' := ⟨_, _, rfl, rfl, rfl, rfl⟩
/-- `C16TouchesOnlyItsOwnState`, `C32TouchesOnlyItsOwnState`, `SerStoresOnlyAtTheEndOfTheStream`: a command of each unit; one
of SER that stores and one that does not, and its first and last stored byte. -/
theorem test_witness_units : ∃ t u v x,
    Instr.unit .c16init = .c16 ∧ exec .c16init started = .next t ∧ Instr.unit .c32init = .c32 ∧ exec .c32init started = .next u ∧
    Instr.unit (.put32 0#32) = .ser ∧ exec (.put32 0#32) started = .next v ∧ v.flt = none ∧ 0 < started.out.length ∧
    0 < Instr.emitWidth (.put32 0#32) ∧ 3 < Instr.emitWidth (.put32 0#32) ∧ exec (.putc 0x80#21) started = .next x ∧ x.flt ≠ none :=
  ⟨_, _, _, _, rfl, rfl, rfl, rfl, rfl, rfl, rfl, by decide, by decide, by decide, rfl, by decide⟩

/-- `C16AnswersTheFinalValueOfEveryMessage`, `InstallCodeCheckAnswersItsValidity` (a payload of 6 bytes, V16-14),
`RecordSequenceEmitsTheChecksumBeforeTheMessage`: their lists placed. -/
theorem test_witness_checksum16 : ∃ s : State, s.flt = none ∧ s.pending = send (checksum16 [0x31#8]) :=
  ⟨{ started with pending := send (checksum16 [0x31#8]) }, rfl, rfl⟩
theorem test_witness_install_code : ∃ s : State, s.flt = none ∧
    s.pending = send (checkInstallCode [1#8, 2#8, 3#8, 4#8, 5#8, 6#8] 0x0E#8 0xB8#8) ∧
    [1#8, 2#8, 3#8, 4#8, 5#8, 6#8].length ∈ [6, 8, 12, 16] :=
  ⟨{ started with pending := send (checkInstallCode [1#8, 2#8, 3#8, 4#8, 5#8, 6#8] 0x0E#8 0xB8#8) }, rfl, rfl, by decide⟩
theorem test_witness_record : ∃ s : State, s.flt = none ∧ s.pending = send (recordWithChecksum [0x31#8]) :=
  ⟨{ started with pending := send (recordWithChecksum [0x31#8]) }, rfl, rfl⟩
/-- `ReadsAreHarmless`: a read that answers, and a command after it. -/
theorem test_witness_reads : ∃ t u v, exec .c16rd started = .next t ∧ t.flt = started.flt ∧
    exec (.c16upd 0x31#8) t = .next u ∧ exec (.c16upd 0x31#8) started = .next v := ⟨_, _, _, rfl, rfl, rfl, rfl⟩

/-- `LeIsLowByteFirst`, `LeIsABijectionAndWideIsNarrow`: the last byte of a width, and a run of SER commands without a fault. -/
theorem test_witness_le : 3 < 4 ∧ ∃ t, runAll { started with pending := send [.put16 1#16, .putc 0x41#21] } = .next t ∧
    started.flt = none ∧ (∀ i ∈ [Instr.put16 1#16, .putc 0x41#21], i.unit = .ser) ∧ t.flt = none :=
  ⟨by decide, _, rfl, rfl, by decide, rfl⟩
/-- `ByteArraysPassThrough`, `ArraysAreEmittedInAscendingIndex`, `TextStopsAtTheFirstNonAsciiCharacter`: their lists placed. -/
theorem test_witness_put8s : ∃ s : State, s.flt = none ∧ s.pending = send ([1#8, 2#8].map .put8) :=
  ⟨{ started with pending := send ([1#8, 2#8].map .put8) }, rfl, rfl⟩
theorem test_witness_put16s : ∃ s : State, s.flt = none ∧ s.pending = send ([1#16, 2#16].map .put16) :=
  ⟨{ started with pending := send ([1#16, 2#16].map .put16) }, rfl, rfl⟩
theorem test_witness_put32s : ∃ s : State, s.flt = none ∧ s.pending = send ([1#32, 2#32].map .put32) :=
  ⟨{ started with pending := send ([1#32, 2#32].map .put32) }, rfl, rfl⟩
theorem test_witness_text : ∃ s : State, s.flt = none ∧ s.pending = send ([0x7F#21].map .putc) ∧
    ∀ c ∈ [0x7F#21], c.toNat ≤ 0x7F :=
  ⟨{ started with pending := send ([0x7F#21].map .putc) }, rfl, rfl, fun c h => by simp at h; simp [h]⟩
theorem test_witness_text_stopped : ∃ s : State, s.flt = none ∧
    s.pending = send (([0x7F#21] ++ 0x80#21 :: [0x42#21]).map .putc) ∧ 0x80 ≤ (0x80#21).toNat :=
  ⟨{ started with pending := send (([0x7F#21] ++ 0x80#21 :: [0x42#21]).map .putc) }, rfl, rfl, by decide⟩
/-- `SignedIntegersArePresentedInTwosComplement`: both ends of each width. -/
theorem test_witness_signed :
    signedInRange 1 (-128) ∧ signedInRange 1 127 ∧ signedInRange 2 (-32768) ∧ signedInRange 2 32767 ∧
    signedInRange 4 (-2147483648) ∧ signedInRange 4 2147483647 := by norm_num [signedInRange]

end Sys2Proof.Tests
end

section
/-! SUPPORT. Laws of commands sent: the word of a command decodes to it, a command always has a next state, a read of an
unwritten register, and the run of a list of commands taken one command at a time. -/

namespace Sys2Proof

/-- R42: the word the encoder gives is the command. -/
theorem decode_encode (i : Instr) : decode (encode i) = .command i := by
  cases i with
  | c16init => simp [encode, decode_fields]
  | c16upd b => simp [encode, decode_fields, setWidth_and_eq_zero b 0xFFFFFF00#32 (by decide), extract_of_setWidth]
  | c16rd => simp [encode, decode_fields]
  | c16chk t => simp [encode, decode_fields, setWidth_and_eq_zero t 0xFFFF0000#32 (by decide), extract_of_setWidth]
  | c32init => simp [encode, decode_fields]
  | c32upd b => simp [encode, decode_fields, setWidth_and_eq_zero b 0xFFFFFF00#32 (by decide), extract_of_setWidth]
  | c32rd => simp [encode, decode_fields]
  | put8 v => simp [encode, decode_fields, setWidth_and_eq_zero v 0xFFFFFF00#32 (by decide), extract_of_setWidth]
  | put16 v => simp [encode, decode_fields, setWidth_and_eq_zero v 0xFFFF0000#32 (by decide), extract_of_setWidth]
  | put32 v => simp [encode, decode_fields]
  | putc cp => simp [encode, decode_fields, setWidth_and_eq_zero cp 0xFFE00000#32 (by decide), extract_of_setWidth]

end Sys2Proof

namespace Sys2Proof.Machine

/-- Every command has a next state in every state (no meaning faults or is refused as a step). -/
theorem exec_next (i : Instr) (s : State) : ∃ t, exec i s = .next t := by
  cases i <;> exact ⟨_, rfl⟩

section Unwritten
variable {s : State} (h : s.flt = none)
include h

theorem exec_c16upd_unwritten (b : BitVec 8) (hc : s.crc16 = none) :
    exec (.c16upd b) s = .next (s.raiseFault .uninit16) := by
  simp only [exec, execC16upd, State.unlessFaulted_clear h, State.withCrc16_unwritten hc]

theorem exec_c16rd_unwritten (hc : s.crc16 = none) : exec .c16rd s = .next (s.raiseFault .uninit16) := by
  simp only [exec, execC16rd, State.unlessFaulted_clear h, State.withCrc16_unwritten hc]

theorem exec_c16chk_unwritten (x : BitVec 16) (hc : s.crc16 = none) :
    exec (.c16chk x) s = .next (s.raiseFault .uninit16) := by
  simp only [exec, execC16chk, State.unlessFaulted_clear h, State.withCrc16_unwritten hc]

theorem exec_c32upd_unwritten (b : BitVec 8) (hc : s.crc32 = none) :
    exec (.c32upd b) s = .next (s.raiseFault .uninit32) := by
  simp only [exec, execC32upd, State.unlessFaulted_clear h, State.withCrc32_unwritten hc]

theorem exec_c32rd_unwritten (hc : s.crc32 = none) : exec .c32rd s = .next (s.raiseFault .uninit32) := by
  simp only [exec, execC32rd, State.unlessFaulted_clear h, State.withCrc32_unwritten hc]

end Unwritten

/-- Issuing the word of a command is the command's meaning. With `flt` set both ignore it (R85). -/
theorem issueWord_encode (i : Instr) (s : State) : issueWord (encode i) s = exec i s := by
  cases h : s.flt with
  | none => simp [issueWord, decode_encode, State.faulted, h]
  | some f => simp [issueWord, State.faulted, h, exec_ignored i h]

theorem step_encode {s : State} {i : Instr} {rest : List HostEvent} (hp : s.pending = .command (encode i) :: rest) :
    step s = exec i { s with pending := rest } := by
  simp only [step, hostStep, hp, hostEvent, issueWord_encode]

/-- The run of a list of commands is what its first command does and the run of the others. -/
theorem runAll_send_cons {s : State} {i : Instr} {is : List Instr} (hp : s.pending = send (i :: is)) :
    ∃ u, Does i { s with pending := send is } u ∧ u.pending = send is ∧ runAll s = runAll u := by
  obtain ⟨u, hu⟩ := exec_next i { s with pending := send is }
  have hdo := does_of_exec hu
  exact ⟨u, hdo, hdo.pending_eq, runAll_cons hp ((step_encode hp).trans hu) hdo.pending_eq⟩

/-- No command clears `flt` (R89). -/
theorem Does.flt_eq_none {i : Instr} {s t : State} (h : Does i s t) (ht : t.flt = none) : s.flt = none := by
  cases h with
  | ignored => exact ht
  | _ => assumption

/-- R89, R102: commands that end without a fault recorded were begun without one. -/
theorem flt_eq_none_of_runAll_send {is : List Instr} {s t : State} (hp : s.pending = send is) (hr : runAll s = .next t)
    (ht : t.flt = none) : s.flt = none := by
  induction is generalizing s with
  | nil =>
    rw [runAll_nil hp] at hr
    cases hr
    exact ht
  | cons i is ih =>
    obtain ⟨u, hdo, hpu, hru⟩ := runAll_send_cons hp
    exact hdo.flt_eq_none (ih hpu (hru ▸ hr))

/-- The induction over a run of commands without a fault: what relates a state to a value, and is kept by every command that
records no fault while the value takes the command in, relates the end of the run to the value that took in all of them. -/
theorem runAll_send_foldl {α : Type} {next : α → Instr → α} {P : α → State → Prop}
    (hstep : ∀ a i (s t : State) rest, Does i { s with pending := rest } t → t.flt = none → P a s → P (next a i) t)
    {is : List Instr} {s t : State} {a : α} (hp : s.pending = send is) (hr : runAll s = .next t) (ht : t.flt = none)
    (hs : P a s) : P (is.foldl next a) t := by
  induction is generalizing s a with
  | nil =>
    rw [runAll_nil hp] at hr
    cases hr
    exact hs
  | cons i is ih =>
    obtain ⟨u, hdo, hpu, hru⟩ := runAll_send_cons hp
    rw [hru] at hr
    exact ih hpu hr (hstep a i s u _ hdo (flt_eq_none_of_runAll_send hpu hr ht) hs)

end Sys2Proof.Machine
end

section
/-! SUPPORT. Laws of the checksum registers: the running value and the message as folds, who writes a register, and a
register that holds the running value of its message. -/

namespace Sys2Proof.Machine

theorem run16_eq_foldl (c : BitVec 16) (bs : List Byte) : run16 c bs = bs.foldl step16 c := by
  induction bs generalizing c with
  | nil => rfl
  | cons b bs ih => exact ih (step16 c b)

theorem run32_eq_foldl (c : BitVec 32) (bs : List Byte) : run32 c bs = bs.foldl step32 c := by
  induction bs generalizing c with
  | nil => rfl
  | cons b bs ih => exact ih (step32 c b)

theorem run16_concat (c : BitVec 16) (bs : List Byte) (b : Byte) : run16 c (bs ++ [b]) = step16 (run16 c bs) b := by
  simp only [run16_eq_foldl, List.foldl_concat]

theorem run32_concat (c : BitVec 32) (bs : List Byte) (b : Byte) : run32 c (bs ++ [b]) = step32 (run32 c bs) b := by
  simp only [run32_eq_foldl, List.foldl_concat]

/-- The message of C16 takes in one command after the other. -/
theorem message16_eq_foldl (m : Option (List Byte)) (is : List Instr) :
    message16 m is = is.foldl (fun m i => message16 m [i]) m := by
  induction is generalizing m with
  | nil => rfl
  | cons i is ih => rw [List.foldl_cons, ← ih]; cases i <;> rfl

/-- The message of C32 takes in one command after the other. -/
theorem message32_eq_foldl (m : Option (List Byte)) (is : List Instr) :
    message32 m is = is.foldl (fun m i => message32 m [i]) m := by
  induction is generalizing m with
  | nil => rfl
  | cons i is ih => rw [List.foldl_cons, ← ih]; cases i <;> rfl

/-- R11: `crc16` is written by `C16INIT` and `C16UPD` only. -/
theorem Does.crc16_cases {i : Instr} {s t : State} (h : Does i s t) :
    t.crc16 = s.crc16 ∨ (i = .c16init ∧ t.crc16 = some seed16) ∨
      ∃ b c, i = .c16upd b ∧ s.crc16 = some c ∧ t.crc16 = some (step16 c b) := by
  cases h with
  | c16init => exact .inr (.inl ⟨rfl, rfl⟩)
  | c16upd b c _ hc => exact .inr (.inr ⟨b, c, rfl, hc, rfl⟩)
  | _ => exact .inl rfl

/-- R13: `crc32` is written by `C32INIT` and `C32UPD` only. -/
theorem Does.crc32_cases {i : Instr} {s t : State} (h : Does i s t) :
    t.crc32 = s.crc32 ∨ (i = .c32init ∧ t.crc32 = some seed32) ∨
      ∃ b c, i = .c32upd b ∧ s.crc32 = some c ∧ t.crc32 = some (step32 c b) := by
  cases h with
  | c32init => exact .inr (.inl ⟨rfl, rfl⟩)
  | c32upd b c _ hc => exact .inr (.inr ⟨b, c, rfl, hc, rfl⟩)
  | _ => exact .inl rfl

/-- `crc16` is the running value of a message of C16, or is unwritten when there is none (R11). -/
def HoldsRun16 (m : Option (List Byte)) (s : State) : Prop := s.crc16 = m.map (run16 seed16)

/-- `crc32` is the running value of a message of C32, or is unwritten when there is none (R13). -/
def HoldsRun32 (m : Option (List Byte)) (s : State) : Prop := s.crc32 = m.map (run32 seed32)

/-- A command that ends without a fault keeps `crc16` the running value of the message it leaves. -/
theorem Does.holdsRun16 {i : Instr} {s t : State} {m : Option (List Byte)} (h : Does i s t) (ht : t.flt = none)
    (hm : HoldsRun16 m s) : HoldsRun16 (message16 m [i]) t := by
  cases h with
  | ignored i f hf => exact absurd (hf.symm.trans ht) (Option.some_ne_none f)
  | c16init => rfl
  | c16upd b c _ hc =>
    obtain ⟨bs, rfl, rfl⟩ := Option.map_eq_some_iff.mp (hm.symm.trans hc)
    exact congrArg some (run16_concat seed16 bs b).symm
  | c16updUnwritten => cases ht
  | _ => exact hm

/-- A command that ends without a fault keeps `crc32` the running value of the message it leaves. -/
theorem Does.holdsRun32 {i : Instr} {s t : State} {m : Option (List Byte)} (h : Does i s t) (ht : t.flt = none)
    (hm : HoldsRun32 m s) : HoldsRun32 (message32 m [i]) t := by
  cases h with
  | ignored i f hf => exact absurd (hf.symm.trans ht) (Option.some_ne_none f)
  | c32init => rfl
  | c32upd b c _ hc =>
    obtain ⟨bs, rfl, rfl⟩ := Option.map_eq_some_iff.mp (hm.symm.trans hc)
    exact congrArg some (run32_concat seed32 bs b).symm
  | c32updUnwritten => cases ht
  | _ => exact hm

/-- A step runs the command of the next word, or it leaves each unwritten register unwritten. -/
theorem does_or_unwritten_kept_of_step {s t : State} (e : step s = .next t) :
    (∃ w rest i, s.pending = .command w :: rest ∧ decode w = .command i ∧ Does i { s with pending := rest } t) ∨
      ((s.crc16 = none → t.crc16 = none) ∧ (s.crc32 = none → t.crc32 = none)) := by
  cases steps_of_step e with
  | command w rest i hp _ hd hdo => exact .inl ⟨w, rest, i, hp, hd, hdo⟩
  | reset _ _ ht => subst ht; exact .inr ⟨fun _ => rfl, fun _ => rfl⟩
  | idle _ ht | ignored _ _ _ _ _ ht | illegal _ _ _ _ _ _ ht => subst ht; exact .inr ⟨id, id⟩

/-- R12: the only step that writes an unwritten `crc16` is one that takes `C16INIT`. -/
theorem crc16_written_by_init {s t : State} (e : step s = .next t) (hs : s.crc16 = none) (ht : t.crc16 ≠ none) :
    ∃ w rest, s.pending = .command w :: rest ∧ decode w = .command .c16init := by
  obtain ⟨w, rest, i, hp, hd, hdo⟩ | ⟨h16, h32⟩ := does_or_unwritten_kept_of_step e
  · obtain hsame | ⟨rfl, -⟩ | ⟨b, c, -, hc, -⟩ := hdo.crc16_cases
    · exact absurd (hsame.trans hs) ht
    · exact ⟨w, rest, hp, hd⟩
    · exact absurd (hc.symm.trans hs) (Option.some_ne_none c)
  · exact absurd (h16 hs) ht

/-- R12: the only step that writes an unwritten `crc32` is one that takes `C32INIT`. -/
theorem crc32_written_by_init {s t : State} (e : step s = .next t) (hs : s.crc32 = none) (ht : t.crc32 ≠ none) :
    ∃ w rest, s.pending = .command w :: rest ∧ decode w = .command .c32init := by
  obtain ⟨w, rest, i, hp, hd, hdo⟩ | ⟨h16, h32⟩ := does_or_unwritten_kept_of_step e
  · obtain hsame | ⟨rfl, -⟩ | ⟨b, c, -, hc, -⟩ := hdo.crc32_cases
    · exact absurd (hsame.trans hs) ht
    · exact ⟨w, rest, hp, hd⟩
    · exact absurd (hc.symm.trans hs) (Option.some_ne_none c)
  · exact absurd (h32 hs) ht

end Sys2Proof.Machine
end

section
/-! The statements of the family 10_state.md. -/

namespace Sys2Proof.Machine

/-- Settles O1: the reset values, what a step can do to an unwritten register, and the faulting reads. -/
theorem unwrittenRegistersHoldNoValue : Obligations.UnwrittenRegistersHoldNoValue := by
  refine ⟨⟨rfl, rfl, rfl, rfl⟩, fun _ _ => crc16_written_by_init, fun _ _ => crc32_written_by_init, ?_, ?_⟩
  · rintro s i h hc (rfl | ⟨b, rfl⟩ | ⟨x, rfl⟩)
    · exact exec_c16rd_unwritten h hc
    · exact exec_c16upd_unwritten h b hc
    · exact exec_c16chk_unwritten h x hc
  · rintro s i h hc (rfl | ⟨b, rfl⟩)
    · exact exec_c32rd_unwritten h hc
    · exact exec_c32upd_unwritten h b hc

/-- Settles O29, by the induction over a run without a fault, each command keeping `HoldsRun16`. -/
theorem crc16HoldsTheRunOfItsMessage : Obligations.Crc16HoldsTheRunOfItsMessage := by
  refine ⟨fun s t is m _ hp hm hr ht => ?_, fun s t i e => (does_of_exec e).crc16_cases⟩
  rw [message16_eq_foldl]
  exact runAll_send_foldl (P := HoldsRun16) (fun _ _ _ _ _ => Does.holdsRun16) hp hr ht hm

/-- Settles O40, by the induction over a run without a fault, each command keeping `HoldsRun32`. -/
theorem crc32HoldsTheRunOfItsMessage : Obligations.Crc32HoldsTheRunOfItsMessage := by
  refine ⟨fun s t is m _ hp hm hr ht => ?_, fun s t i e => (does_of_exec e).crc32_cases⟩
  rw [message32_eq_foldl]
  exact runAll_send_foldl (P := HoldsRun32) (fun _ _ _ _ _ => Does.holdsRun32) hp hr ht hm

end Sys2Proof.Machine
end

section
/-! SUPPORT. Laws of the opcode map: two rows never hold of one word, so decoding is the one row that holds; and what a word
that decodes to a command looks like. -/

namespace Sys2Proof

/-- R35: the rows' operation codes are the eleven assigned ones, in the table's order. -/
theorem map_opField_opcodeMap : opcodeMap.map (fun r => opField r.pattern) = assignedOps := rfl

/-- Every row's mask compares the whole operation code. -/
theorem opField_mask {r : Row} (hr : r ∈ opcodeMap) : opField r.mask = 0xFF#8 := by
  have h : opcodeMap.map (fun r => opField r.mask) = List.replicate 11 0xFF#8 := rfl
  exact List.eq_of_mem_replicate (h ▸ List.mem_map_of_mem (f := fun r : Row => opField r.mask) hr)

theorem Row.holds_iff (r : Row) (w : CmdWord) : r.holds w = true ↔ w &&& r.mask = r.pattern := by
  simp [Row.holds]

theorem opField_eq_of_holds {r : Row} {w : CmdWord} (hr : r ∈ opcodeMap) (h : r.holds w = true) :
    opField w = opField r.pattern := by
  have e : opField (w &&& r.mask) = opField w := by
    rw [opField, BitVec.extractLsb'_and]
    exact (congrArg (opField w &&& ·) (opField_mask hr)).trans BitVec.and_allOnes
  rw [← e, (r.holds_iff w).1 h]

/-- R35: "the rows' conditions are mutually exclusive, because the eleven `op` values differ". -/
theorem opcodeMap_pairwise : opcodeMap.Pairwise fun r q => ∀ w : CmdWord, ¬ (r.holds w = true ∧ q.holds w = true) := by
  have hne : opcodeMap.Pairwise fun r q => opField r.pattern ≠ opField q.pattern :=
    List.pairwise_map.1 (map_opField_opcodeMap ▸ (by decide : assignedOps.Nodup))
  refine hne.imp_of_mem fun hr hq hop w ⟨hrw, hqw⟩ => hop ?_
  rw [← opField_eq_of_holds hr hrw, opField_eq_of_holds hq hqw]

/-- A list whose members satisfy `p` at most one at a time is filtered to the one that does. -/
theorem filter_eq_singleton_of_pairwise {α : Type} {p : α → Bool} {l : List α} {a : α}
    (hl : l.Pairwise fun x y => ¬ (p x = true ∧ p y = true)) (ha : a ∈ l) (hp : p a = true) : l.filter p = [a] := by
  induction l with
  | nil => cases ha
  | cons x l ih =>
    obtain ⟨hx, hl⟩ := List.pairwise_cons.1 hl
    rcases List.mem_cons.1 ha with rfl | ha
    · rw [List.filter_cons_of_pos hp, List.filter_eq_nil_iff.2 fun y hy hpy => hx y hy ⟨hp, hpy⟩]
    · rw [List.filter_cons_of_neg fun hpx => hx a ha ⟨hpx, hp⟩, ih hl ha]

/-- R42: a word decodes to a command exactly when a row of the map holds of it and gives that command. -/
theorem decode_eq_command_iff (w : CmdWord) (i : Instr) :
    decode w = .command i ↔ ∃ r ∈ opcodeMap, r.holds w = true ∧ i = r.command w := by
  constructor
  · intro h
    unfold decode at h
    split at h
    next r hf =>
      have hr : r ∈ opcodeMap.filter fun r => r.holds w := hf ▸ List.mem_singleton_self r
      cases h
      exact ⟨r, (List.mem_filter.1 hr).1, (List.mem_filter.1 hr).2, rfl⟩
    next => cases h
  · rintro ⟨r, hr, hw, rfl⟩
    rw [decode, filter_eq_singleton_of_pairwise (opcodeMap_pairwise.imp fun h => h w) hr hw]

/-- An argument whose bits from `n` up are 0 is given back by the operand taken from the word. -/
theorem setWidth_extract_cmdWord {n : Nat} (hn : n ≤ 32) (op : BitVec 8) {arg zeros : BitVec 32}
    (hz : ∀ i < 32, n ≤ i → zeros.getLsbD i = true) (h : arg &&& zeros = 0#32) :
    ((cmdWord op arg).extractLsb' 0 n).setWidth 32 = arg := by
  rw [cmdWord, BitVec.extractLsb'_append_eq_of_add_le (by omega), setWidth_of_extract n arg zeros hz h]

/-- R42: every word that decodes to a command is the encoder's word of it. -/
theorem encode_of_decode {w : CmdWord} {i : Instr} (h : decode w = .command i) : encode i = w := by
  obtain ⟨r, hr, hw, rfl⟩ := (decode_eq_command_iff w i).1 h
  rw [← cmdWord_fields w] at hw ⊢
  generalize opField w = op, argField w = arg at hw ⊢
  have noOperand (ha : arg &&& 0xFFFFFFFF#32 = 0#32) : 0#32 = arg := (BitVec.and_allOnes.symm.trans ha).symm
  have operand8 := setWidth_extract_cmdWord (arg := arg) (zeros := 0xFFFFFF00#32) (show 8 ≤ 32 by decide) op (by decide)
  have operand16 := setWidth_extract_cmdWord (arg := arg) (zeros := 0xFFFF0000#32) (show 16 ≤ 32 by decide) op (by decide)
  have operand21 := setWidth_extract_cmdWord (arg := arg) (zeros := 0xFFE00000#32) (show 21 ≤ 32 by decide) op (by decide)
  simp only [opcodeMap_eq, List.mem_cons, List.not_mem_nil, or_false] at hr
  rcases hr with rfl | rfl | rfl | rfl | rfl | rfl | rfl | rfl | rfl | rfl | rfl <;>
    obtain ⟨rfl, ha⟩ := of_decide_eq_true ((holds_cmdWord ..).symm.trans hw) <;>
    apply congrArg (cmdWord _)
  · exact noOperand ha
  · exact operand8 ha
  · exact noOperand ha
  · exact operand16 ha
  · exact noOperand ha
  · exact operand8 ha
  · exact noOperand ha
  · exact operand8 ha
  · exact operand16 ha
  · exact argField_cmdWord ..
  · exact operand21 ha

/-- R34: the bits of the argument above an operand of `n` bits are 0. -/
theorem extract_cmdWord_setWidth {n k : Nat} (hn : n + k = 32) (op : BitVec 8) (v : BitVec n) :
    (cmdWord op (v.setWidth 32)).extractLsb' n k = 0#k := by
  rw [cmdWord, BitVec.extractLsb'_append_eq_of_add_le (by omega)]
  apply BitVec.eq_of_getLsbD_eq
  intro i _
  simp [BitVec.getLsbD_extractLsb']

/-- R36, R37: the operation code is not assigned, or a bit that the format of R34 says must be 0 is 1. -/
def UnassignedOrStray (w : CmdWord) : Prop :=
  opField w ∉ assignedOps ∨
  (opField w ∈ [0x10#8, 0x12#8, 0x20#8, 0x22#8] ∧ argField w ≠ 0#32) ∨
  (opField w ∈ [0x11#8, 0x21#8, 0x31#8] ∧ w.extractLsb' 8 24 ≠ 0#24) ∨
  (opField w ∈ [0x13#8, 0x32#8] ∧ w.extractLsb' 16 16 ≠ 0#16) ∨
  (opField w = 0x38#8 ∧ w.extractLsb' 21 11 ≠ 0#11)

theorem not_unassignedOrStray_encode (i : Instr) : ¬ UnassignedOrStray (encode i) := by
  cases i <;> simp [UnassignedOrStray, encode, assignedOps, extract_cmdWord_setWidth]

/-- R36, R37: such a word is no command. -/
theorem decode_ne_command_of_unassignedOrStray {w : CmdWord} (hw : UnassignedOrStray w) (i : Instr) :
    decode w ≠ .command i := by
  intro h
  rw [← encode_of_decode h] at hw
  exact not_unassignedOrStray_encode i hw

end Sys2Proof
end

section
/-! SUPPORT. Laws of issuing a word: an illegal word's fault, and the response each command gives (R40). -/

namespace Sys2Proof.Machine

/-- With `flt` set a word is ignored (R85). -/
theorem issueWord_faulted {w : CmdWord} {s : State} {f : FaultCode} (h : s.flt = some f) :
    issueWord w s = .next s.ignoreWord := by
  simp [issueWord, State.faulted, h]

/-- A word that is no command raises ILLEGAL_CMD (R36, R37). -/
theorem issueWord_illegal {w : CmdWord} {s : State} (h : s.flt = none) (hw : ∀ i, decode w ≠ .command i) :
    issueWord w s = .next (s.raiseFault .illegalCmd) := by
  cases hd : decode w with
  | command i => exact absurd hd (hw i)
  | illegal why => simp [issueWord, State.faulted, h, hd]

/-- A word that decodes to a command has the command's meaning. -/
theorem issueWord_command {w : CmdWord} {s : State} {i : Instr} (hd : decode w = .command i) : issueWord w s = exec i s := by
  rw [← encode_of_decode hd, issueWord_encode]

/-- R40: the kind of response of a command that records no fault. -/
def ResponseKind (i : Instr) (s : State) (r : Response) : Prop :=
  (i = .c16rd → ∃ v, r = .r16 v) ∧ (i = .c32rd → ∃ v, r = .r32 v) ∧
  (∀ x c, i = .c16chk x → s.crc16 = some c → r = .r1 (trailerVerdict c x)) ∧
  (i ≠ .c16rd → i ≠ .c32rd → (∀ x, i ≠ .c16chk x) → r = .none)

/-- R40: one response, `none` with a fault recorded and of the command's kind without. -/
theorem Does.response {i : Instr} {s t : State} (h : Does i s t) :
    ∃ r, t.responses = s.responses ++ [r] ∧ (t.flt ≠ none → r = .none) ∧ (t.flt = none → ResponseKind i s r) := by
  cases h with
  | ignored i f h => exact ⟨.none, rfl, fun _ => rfl, fun ht => absurd (h.symm.trans ht) (Option.some_ne_none f)⟩
  | c16rd c h hc => exact ⟨_, rfl, fun ht => absurd h ht, fun _ => by simp [ResponseKind]⟩
  | c16chk x c h hc => exact ⟨_, rfl, fun ht => absurd h ht, fun _ => by simp [ResponseKind, hc]⟩
  | c32rd c h hc => exact ⟨_, rfl, fun ht => absurd h ht, fun _ => by simp [ResponseKind]⟩
  | _ => exact ⟨.none, rfl, fun _ => rfl, by simp [ResponseKind]⟩

end Sys2Proof.Machine
end

section
/-! SUPPORT. Laws of the assembler: an operand written unsigned assembles to itself, and a program to the list of what its
commands assemble to. -/

namespace Sys2Proof.Machine

@[simp] theorem assemble_c16init : assemble .c16init = some .c16init := rfl
@[simp] theorem assemble_c16rd : assemble .c16rd = some .c16rd := rfl
@[simp] theorem assemble_c32init : assemble .c32init = some .c32init := rfl
@[simp] theorem assemble_c32rd : assemble .c32rd = some .c32rd := rfl

@[simp] theorem assemble_c16upd_toNat (b : BitVec 8) : assemble (.c16upd b.toNat) = some (.c16upd b) := by
  simp [assemble, Source.wellFormed]
  omega

@[simp] theorem assemble_c32upd_toNat (b : BitVec 8) : assemble (.c32upd b.toNat) = some (.c32upd b) := by
  simp [assemble, Source.wellFormed]
  omega

@[simp] theorem assemble_put8_toNat (v : BitVec 8) : assemble (.put8 v.toNat) = some (.put8 v) := by
  simp [assemble, Source.wellFormed]
  omega

@[simp] theorem assemble_put16_toNat (v : BitVec 16) : assemble (.put16 v.toNat) = some (.put16 v) := by
  simp [assemble, Source.wellFormed]
  omega

@[simp] theorem assemble_put32_toNat (v : BitVec 32) : assemble (.put32 v.toNat) = some (.put32 v) := by
  simp [assemble, Source.wellFormed]
  omega

@[simp] theorem assemble_putc_toNat (cp : CodePoint) : assemble (.putc cp.toNat) = some (.putc cp) := by
  simp [assemble, Source.wellFormed]
  omega

@[simp] theorem allSome_map_some {α : Type} (l : List α) : allSome (l.map some) = some l := by
  induction l with
  | nil => rfl
  | cons a l ih => simp [allSome, ih]

theorem assembleAll_of_map_assemble {cs : List Source} {is : List Instr} (h : cs.map assemble = is.map some) :
    assembleAll cs = some is := by
  rw [assembleAll, h, allSome_map_some]

end Sys2Proof.Machine
end

section
/-! The statements of the family 30_encoding.md. -/

namespace Sys2Proof.Machine

/-- Settles O11, by the three ways a word can be answered: ignored, illegal, or a command's own response. -/
theorem oneResponseOfItsKindForEachWord : Obligations.OneResponseOfItsKindForEachWord := by
  intro w s
  cases h : s.flt with
  | some f =>
    have hne : s.ignoreWord.flt ≠ none := by simp [State.ignoreWord, h]
    exact ⟨_, .none, issueWord_faulted h, rfl, fun _ => rfl, fun ht => absurd ht hne⟩
  | none =>
    by_cases hd : ∃ i, decode w = .command i
    · obtain ⟨i, hd⟩ := hd
      obtain ⟨t, ht⟩ := exec_next i s
      obtain ⟨r, hr, hfault, hkind⟩ := (does_of_exec ht).response
      exact ⟨t, r, (issueWord_command hd).trans ht, hr, hfault, fun hf => ⟨i, hd, hkind hf⟩⟩
    · exact ⟨_, .none, issueWord_illegal h (not_exists.1 hd), rfl, fun _ => rfl, fun ht => nomatch ht⟩

/-- Settles O18: decoding is the one row that holds, and a row's command determines the row. -/
theorem wordIsARowsCommandIffMaskedBitsMatch : Obligations.WordIsARowsCommandIffMaskedBitsMatch := by
  have exclusive := opcodeMap_pairwise
  simp only [Row.holds_iff] at exclusive
  refine ⟨?_, ?_, ?_, ?_, ?_, ?_, ?_, ?_, ?_, ?_, ?_, exclusive⟩ <;>
    intros <;> simp [decode_eq_command_iff, opcodeMap, Row.holds_iff]

/-- Settles O19: the encoder's words have none of these bits, and every command's word is the encoder's. -/
theorem unassignedOrStrayBitsAreIllegal : Obligations.UnassignedOrStrayBitsAreIllegal := by
  refine ⟨fun w s h hw => ?_, ?_, ?_, ?_⟩
  · have hd := decode_ne_command_of_unassignedOrStray hw
    exact ⟨hd, issueWord_illegal h hd⟩
  · exact decode_ne_command_of_unassignedOrStray (.inl (by decide))
  · exact decode_ne_command_of_unassignedOrStray (.inl (by decide))
  · exact decode_ne_command_of_unassignedOrStray (.inr (.inr (.inl (by decide))))

/-- Settles O56: each listed command is assembled by itself, in its place. -/
theorem pseudoCommandsExpandToTheListedCommands : Obligations.PseudoCommandsExpandToTheListedCommands := by
  refine ⟨?_, ?_, ?_, ?_, ?_, ?_, ?_, ?_, ?_⟩ <;>
    exact fun _ => assembleAll_of_map_assemble (by simp [Pseudo.expand])

end Sys2Proof.Machine
end

section
/-! SUPPORT. Laws of a command's word written as a sum: the operation code at bit 32 plus the operand (R42). -/

namespace Sys2Proof

/-- R33: a word is `op << 32` plus its argument. -/
theorem cmdWord_toNat (op : BitVec 8) (arg : BitVec 32) : (cmdWord op arg).toNat = op.toNat * 2 ^ 32 + arg.toNat := by
  rw [cmdWord, BitVec.toNat_append, ← Nat.shiftLeft_add_eq_or_of_lt arg.isLt, Nat.shiftLeft_eq]

/-- R42: "`op << 32` plus the operand in its bits". -/
theorem cmdWord_setWidth_eq_add {n : Nat} (hn : n ≤ 32) (op : BitVec 8) (v : BitVec n) :
    cmdWord op (v.setWidth 32) = cmdWord op 0#32 + v.setWidth 40 := by
  have hv : v.toNat < 2 ^ 32 := v.isLt.trans_le (Nat.pow_le_pow_right (by decide) hn)
  apply BitVec.eq_of_toNat_eq
  simp only [BitVec.toNat_add, BitVec.toNat_setWidth, cmdWord_toNat, BitVec.toNat_ofNat]
  omega

/-- The word of a command with an operand of `n` bits, written as the sum, decodes to the command. -/
theorem decode_op_add_operand {n : Nat} {op : BitVec 8} {v : BitVec n} {i : Instr} (hn : n ≤ 32)
    (h : encode i = cmdWord op (v.setWidth 32)) : decode (cmdWord op 0#32 + v.setWidth 40) = .command i := by
  rw [← cmdWord_setWidth_eq_add hn, ← h, decode_encode]

end Sys2Proof
end

section
/-! SUPPORT. Laws of the unit a command belongs to: `exec` is `Does`, a command reads the register of its own unit and `flt`,
and a run without a fault gives a unit's register the value it has without the other units' commands (R44, R57). -/

namespace Sys2Proof.Machine

/-- The converse of `does_of_exec`: what a command does is what `exec` answers. -/
theorem exec_of_does {i : Instr} {s t : State} (h : Does i s t) : exec i s = .next t := by
  cases h with
  | ignored i f h => exact exec_ignored i h
  | c16init h => rw [exec, execC16init, State.unlessFaulted_clear h]
  | c16updUnwritten b h hc => exact exec_c16upd_unwritten h b hc
  | c16upd b c h hc => rw [exec, execC16upd, State.unlessFaulted_clear h, State.withCrc16_written hc]
  | c16rdUnwritten h hc => exact exec_c16rd_unwritten h hc
  | c16rd c h hc => rw [exec, execC16rd, State.unlessFaulted_clear h, State.withCrc16_written hc]
  | c16chkUnwritten x h hc => exact exec_c16chk_unwritten h x hc
  | c16chk x c h hc => rw [exec, execC16chk, State.unlessFaulted_clear h, State.withCrc16_written hc]
  | c32init h => rw [exec, execC32init, State.unlessFaulted_clear h]
  | c32updUnwritten b h hc => exact exec_c32upd_unwritten h b hc
  | c32upd b c h hc => rw [exec, execC32upd, State.unlessFaulted_clear h, State.withCrc32_written hc]
  | c32rdUnwritten h hc => exact exec_c32rd_unwritten h hc
  | c32rd c h hc => rw [exec, execC32rd, State.unlessFaulted_clear h, State.withCrc32_written hc]
  | put8 v h => rw [exec, execPut8, State.unlessFaulted_clear h]
  | put16 v h => rw [exec, execPut16, State.unlessFaulted_clear h]
  | put32 v h => rw [exec, execPut32, State.unlessFaulted_clear h]
  | putcNonAscii cp h hcp => rw [exec, execPutc, State.unlessFaulted_clear h, Config.putcNonascii, State.emitChar_fault hcp]
  | putc cp h hcp => rw [exec, execPutc, State.unlessFaulted_clear h, State.emitChar_ascii hcp]

theorem exec_of_flt_ne_none (i : Instr) {s : State} (h : s.flt ≠ none) : exec i s = .next s.ignoreWord := by
  obtain ⟨f, hf⟩ := Option.ne_none_iff_exists'.1 h
  exact exec_ignored i hf

/-- Two states agree on what a command of a unit reads: `flt`, and the unit's register if it has one. -/
structure AgreeOn (u : CsbUnit) (s s' : State) : Prop where
  flt : s.flt = s'.flt
  crc16 : u = .c16 → s.crc16 = s'.crc16
  crc32 : u = .c32 → s.crc32 = s'.crc32

namespace AgreeOn
variable {u : CsbUnit} {s s' : State} (h : AgreeOn u s s')
include h

theorem trans {s'' : State} (h' : AgreeOn u s' s'') : AgreeOn u s s'' :=
  ⟨h.flt.trans h'.flt, fun hu => (h.crc16 hu).trans (h'.crc16 hu), fun hu => (h.crc32 hu).trans (h'.crc32 hu)⟩

theorem withPending (p p' : List HostEvent) : AgreeOn u { s with pending := p } { s' with pending := p' } :=
  ⟨h.flt, h.crc16, h.crc32⟩

theorem respond (r : Response) : AgreeOn u (s.respond r) (s'.respond r) := ⟨h.flt, h.crc16, h.crc32⟩

theorem raiseFault (f : FaultCode) : AgreeOn u (s.raiseFault f) (s'.raiseFault f) := ⟨rfl, h.crc16, h.crc32⟩

theorem setCrc16 (c : BitVec 16) : AgreeOn u (s.setCrc16 c) (s'.setCrc16 c) := ⟨h.flt, fun _ => rfl, h.crc32⟩

theorem setCrc32 (c : BitVec 32) : AgreeOn u (s.setCrc32 c) (s'.setCrc32 c) := ⟨h.flt, h.crc16, fun _ => rfl⟩

theorem emit (n : Nat) {w : Nat} (v : BitVec w) : AgreeOn u (s.emit n v) (s'.emit n v) := ⟨h.flt, h.crc16, h.crc32⟩

end AgreeOn

/-- A command does the same and answers the same in every state that agrees on what its unit reads, and keeps every unit's
agreement (R18, R44, R57). -/
theorem Does.alike {i : Instr} {s s' t : State} (h : Does i s t) (ha : AgreeOn i.unit s s') :
    ∃ t' r, Does i s' t' ∧ (∀ u, AgreeOn u s s' → AgreeOn u t t') ∧
      t.responses = s.responses ++ [r] ∧ t'.responses = s'.responses ++ [r] := by
  have flt {f} (hf : s.flt = f) : s'.flt = f := ha.flt ▸ hf
  cases h with
  | ignored i f h => exact ⟨_, _, .ignored i f (flt h), fun _ hu => hu.respond _, rfl, rfl⟩
  | c16init h => exact ⟨_, _, .c16init (flt h), fun _ hu => (hu.setCrc16 _).respond _, rfl, rfl⟩
  | c16updUnwritten b h hc =>
    exact ⟨_, _, .c16updUnwritten b (flt h) (ha.crc16 rfl ▸ hc), fun _ hu => hu.raiseFault _, rfl, rfl⟩
  | c16upd b c h hc =>
    exact ⟨_, _, .c16upd b c (flt h) (ha.crc16 rfl ▸ hc), fun _ hu => (hu.setCrc16 _).respond _, rfl, rfl⟩
  | c16rdUnwritten h hc =>
    exact ⟨_, _, .c16rdUnwritten (flt h) (ha.crc16 rfl ▸ hc), fun _ hu => hu.raiseFault _, rfl, rfl⟩
  | c16rd c h hc => exact ⟨_, _, .c16rd c (flt h) (ha.crc16 rfl ▸ hc), fun _ hu => hu.respond _, rfl, rfl⟩
  | c16chkUnwritten x h hc =>
    exact ⟨_, _, .c16chkUnwritten x (flt h) (ha.crc16 rfl ▸ hc), fun _ hu => hu.raiseFault _, rfl, rfl⟩
  | c16chk x c h hc => exact ⟨_, _, .c16chk x c (flt h) (ha.crc16 rfl ▸ hc), fun _ hu => hu.respond _, rfl, rfl⟩
  | c32init h => exact ⟨_, _, .c32init (flt h), fun _ hu => (hu.setCrc32 _).respond _, rfl, rfl⟩
  | c32updUnwritten b h hc =>
    exact ⟨_, _, .c32updUnwritten b (flt h) (ha.crc32 rfl ▸ hc), fun _ hu => hu.raiseFault _, rfl, rfl⟩
  | c32upd b c h hc =>
    exact ⟨_, _, .c32upd b c (flt h) (ha.crc32 rfl ▸ hc), fun _ hu => (hu.setCrc32 _).respond _, rfl, rfl⟩
  | c32rdUnwritten h hc =>
    exact ⟨_, _, .c32rdUnwritten (flt h) (ha.crc32 rfl ▸ hc), fun _ hu => hu.raiseFault _, rfl, rfl⟩
  | c32rd c h hc => exact ⟨_, _, .c32rd c (flt h) (ha.crc32 rfl ▸ hc), fun _ hu => hu.respond _, rfl, rfl⟩
  | put8 v h => exact ⟨_, _, .put8 v (flt h), fun _ hu => (hu.emit 1 v).respond _, rfl, rfl⟩
  | put16 v h => exact ⟨_, _, .put16 v (flt h), fun _ hu => (hu.emit 2 v).respond _, rfl, rfl⟩
  | put32 v h => exact ⟨_, _, .put32 v (flt h), fun _ hu => (hu.emit 4 v).respond _, rfl, rfl⟩
  | putcNonAscii cp h hcp => exact ⟨_, _, .putcNonAscii cp (flt h) hcp, fun _ hu => hu.raiseFault _, rfl, rfl⟩
  | putc cp h hcp => exact ⟨_, _, .putc cp (flt h) hcp, fun _ hu => (hu.emit 1 _).respond _, rfl, rfl⟩

/-- R44: no command of another unit writes `crc16`. -/
theorem Does.crc16_eq_of_unit_ne {i : Instr} {s t : State} (h : Does i s t) (hu : i.unit ≠ .c16) : t.crc16 = s.crc16 := by
  obtain hsame | ⟨rfl, -⟩ | ⟨b, -, rfl, -⟩ := h.crc16_cases
  · exact hsame
  · exact absurd rfl hu
  · exact absurd rfl hu

/-- R57: no command of another unit writes `crc32`. -/
theorem Does.crc32_eq_of_unit_ne {i : Instr} {s t : State} (h : Does i s t) (hu : i.unit ≠ .c32) : t.crc32 = s.crc32 := by
  obtain hsame | ⟨rfl, -⟩ | ⟨b, -, rfl, -⟩ := h.crc32_cases
  · exact hsame
  · exact absurd rfl hu
  · exact absurd rfl hu

/-- R21, R26: only SER emits. -/
theorem Does.out_eq_of_unit_ne {i : Instr} {s t : State} (h : Does i s t) (hu : i.unit ≠ .ser) : t.out = s.out := by
  cases h with
  | put8 | put16 | put32 | putc => exact absurd rfl hu
  | _ => rfl

/-- A command of another unit that records no fault leaves a unit what it reads. -/
theorem Does.agreeOn_of_unit_ne {i : Instr} {u : CsbUnit} {s t : State} (h : Does i s t) (hu : i.unit ≠ u)
    (ht : t.flt = none) : AgreeOn u t s where
  flt := ht.trans (h.flt_eq_none ht).symm
  crc16 := fun e => h.crc16_eq_of_unit_ne (e ▸ hu)
  crc32 := fun e => h.crc32_eq_of_unit_ne (e ▸ hu)

/-- What the first command of a list does, the run does first. -/
theorem Does.runAll_eq {i : Instr} {is : List Instr} {s t : State} (h : Does i { s with pending := send is } t)
    (hp : s.pending = send (i :: is)) : runAll s = runAll t :=
  runAll_cons hp ((step_encode hp).trans (exec_of_does h)) h.pending_eq

/-- R44, R57: taking the other units' commands out of a run without a fault leaves a unit what it computes. -/
theorem runAll_send_filter_unit {u : CsbUnit} {is : List Instr} {s s' t : State} (hp : s.pending = send is)
    (hp' : s'.pending = send (is.filter fun i => i.unit = u)) (ha : AgreeOn u s s') (hr : runAll s = .next t)
    (ht : t.flt = none) : ∃ t', runAll s' = .next t' ∧ AgreeOn u t t' := by
  induction is generalizing s s' with
  | nil =>
    rw [runAll_nil hp] at hr
    cases hr
    exact ⟨s', runAll_nil hp', ha⟩
  | cons i is ih =>
    obtain ⟨v, hdo, hpv, hrv⟩ := runAll_send_cons hp
    rw [hrv] at hr
    by_cases hu : i.unit = u
    · subst hu
      rw [List.filter_cons_of_pos (by simp)] at hp'
      obtain ⟨v', -, hdo', hkeep, -, -⟩ := hdo.alike (ha.withPending _ (send (is.filter fun j => j.unit = i.unit)))
      rw [hdo'.runAll_eq hp']
      exact ih hpv hdo'.pending_eq (hkeep _ (ha.withPending _ _)) hr
    · rw [List.filter_cons_of_neg (by simpa using hu)] at hp'
      have hv := hdo.agreeOn_of_unit_ne hu (flt_eq_none_of_runAll_send hpv hr ht)
      exact ih hpv hp' (hv.trans ⟨ha.flt, ha.crc16, ha.crc32⟩) hr

end Sys2Proof.Machine
end

section
/-! SUPPORT. Laws of C16: a message in pieces (R46), and the trailer as a number (R52). -/

namespace Sys2Proof.Machine

theorem run16_append (c : BitVec 16) (s t : List Byte) : run16 c (s ++ t) = run16 (run16 c s) t := by
  simp only [run16_eq_foldl, List.foldl_append]

theorem trailer16_toNat (q0 q1 : Byte) : (trailer16 q0 q1).toNat = q0.toNat + 256 * q1.toNat := by
  rw [trailer16, BitVec.toNat_append, ← Nat.shiftLeft_add_eq_or_of_lt q0.isLt, Nat.shiftLeft_eq]
  omega

/-- R52: a swapped trailer is another number unless its bytes are equal. -/
theorem trailer16_swap_iff (q0 q1 : Byte) : trailer16 q0 q1 = trailer16 q1 q0 ↔ q0 = q1 := by
  rw [← BitVec.toNat_inj, ← BitVec.toNat_inj (x := q0), trailer16_toNat, trailer16_toNat]
  omega

end Sys2Proof.Machine
end

section
/-! The statements of the family 40_crc16.md. -/

namespace Sys2Proof.Machine

/-- Settles O22: `run16` is the fold of `step16` over the message. -/
theorem run16TakesAMessageInPieces : Obligations.Run16TakesAMessageInPieces :=
  ⟨fun _ => rfl, fun _ _ _ => rfl, run16_append⟩

/-- Settles O30: the frame of a C16 command, that it reads only `crc16` and `flt`, and the run with the other units' commands
taken out. -/
theorem c16TouchesOnlyItsOwnState : Obligations.C16TouchesOnlyItsOwnState := by
  refine ⟨fun i s t hu e => ?_, fun i s t hu e => (does_of_exec e).crc16_eq_of_unit_ne hu,
    fun i s s' t t' hu hc hf e e' => ?_, fun is s t hs hp hr ht => ?_⟩
  · have hdo := does_of_exec e
    have hout : t.out = s.out := hdo.out_eq_of_unit_ne (by simp [hu])
    exact ⟨hdo.crc32_eq_of_unit_ne (by simp [hu]), hout, fun a => congrArg (·[a]?) hout, hdo.pending_eq⟩
  · have ha : AgreeOn i.unit s s' := ⟨hf, fun _ => hc, by simp [hu]⟩
    obtain ⟨u, r, hdo, hkeep, hr, hr'⟩ := (does_of_exec e).alike ha
    cases e'.symm.trans (exec_of_does hdo)
    have ht := hkeep _ ha
    exact ⟨ht.crc16 hu, ht.flt, r, hr, hr'⟩
  · obtain ⟨t', hr', ha⟩ := runAll_send_filter_unit (u := .c16) (s' := { s with pending := _ }) hp rfl
      ⟨rfl, fun _ => rfl, fun _ => rfl⟩ hr ht
    exact ⟨t', hr', ha.flt.symm.trans ht, (ha.crc16 rfl).symm⟩

/-- Settles O21: `f` is the model's iteration, and `step16` is eight of them. -/
theorem step16IsEightIterations : Obligations.Step16IsEightIterations := by
  refine ⟨?_, by decide, by decide, by decide, by decide, by decide⟩
  intro c b f
  have hf : crcBit 0x8408#16 = f := rfl
  simp only [step16, crcByte, crcBits, hf]

/-- Settles O25, by what `C16INIT` does and what `C16RD` does after it. -/
theorem c16InitLoadsTheSeed : Obligations.C16InitLoadsTheSeed := by
  refine ⟨fun s h => exec_of_does (.c16init h), fun s => exec_of_flt_ne_none _, decode_encode .c16init, fun s t h e => ?_⟩
  cases e.symm.trans (exec_of_does (.c16init h))
  exact exec_of_does (.c16rd seed16 h rfl)

/-- Settles O26, by what `C16UPD` does in each case. -/
theorem c16UpdStepsTheRunningValue : Obligations.C16UpdStepsTheRunningValue :=
  ⟨fun b _ c h hc => exec_of_does (.c16upd b c h hc), fun b _ h hc => exec_of_does (.c16updUnwritten b h hc),
    fun _ _ => exec_of_flt_ne_none _, fun b => decode_op_add_operand (op := 0x11#8) (i := .c16upd b) (by decide) rfl,
    by decide, by decide⟩

/-- Settles O27, by what `C16RD` does in each case; the message `123456789` is the rule's example. -/
theorem c16RdAnswersTheComplement : Obligations.C16RdAnswersTheComplement :=
  ⟨fun _ c h hc => exec_of_does (.c16rd c h hc), fun _ h hc => exec_of_does (.c16rdUnwritten h hc),
    fun _ => exec_of_flt_ne_none _, decode_encode .c16rd, by decide +kernel, by decide⟩

/-- Settles O28, by what `C16CHK` does in each case and the trailer's value as a number. -/
theorem c16ChkAnswersWhetherTheTrailerMatches : Obligations.C16ChkAnswersWhetherTheTrailerMatches :=
  ⟨fun x _ c h hc => exec_of_does (.c16chk x c h hc), fun x _ h hc => exec_of_does (.c16chkUnwritten x h hc),
    fun _ _ => exec_of_flt_ne_none _, fun x => decode_op_add_operand (op := 0x13#8) (i := .c16chk x) (by decide) rfl,
    fun q0 q1 => ⟨trailer16_toNat q0 q1, trailer16_toNat q0 q1⟩, trailer16_swap_iff, fun _ => eq_comm,
    by decide, by decide, by decide +kernel⟩

end Sys2Proof.Machine
end

section
/-! SUPPORT. Laws for C32: a message in pieces (R59), and two states that agree on what a command reads (R57). -/

namespace Sys2Proof.Machine

theorem run32_append (c : BitVec 32) (s t : List Byte) : run32 c (s ++ t) = run32 (run32 c s) t := by
  simp only [run32_eq_foldl, List.foldl_append]

/-- From two states that agree on what its unit reads, a command leaves states that still agree, and answers the same. -/
theorem exec_alike {i : Instr} {s s' t t' : State} (ha : AgreeOn i.unit s s') (e : exec i s = .next t)
    (e' : exec i s' = .next t') :
    AgreeOn i.unit t t' ∧ ∃ r, t.responses = s.responses ++ [r] ∧ t'.responses = s'.responses ++ [r] := by
  obtain ⟨u, r, hdo, hkeep, hr, hr'⟩ := (does_of_exec e).alike ha
  cases e'.symm.trans (exec_of_does hdo)
  exact ⟨hkeep _ ha, r, hr, hr'⟩

end Sys2Proof.Machine
end

section
/-! The statements of the family 41_crc32.md. -/

namespace Sys2Proof.Machine

/-- Settles O34: `run32` is the fold of `step32` over the message. -/
theorem run32TakesAMessageInPieces : Obligations.Run32TakesAMessageInPieces :=
  ⟨fun _ => rfl, fun _ _ _ => rfl, run32_append⟩

/-- Settles O41: who writes `crc16`, `crc32` and `out`, that C32 reads only `crc32` and `flt`, and the run with the other
units' commands taken out. -/
theorem c32TouchesOnlyItsOwnState : Obligations.C32TouchesOnlyItsOwnState := by
  refine ⟨fun i s t hu e => ?frame, fun i s t hu e => (does_of_exec e).crc32_eq_of_unit_ne hu,
    fun i s s' t t' hu hc hf e e' => ?reads, fun is s t _ hp hr ht => ?interleaved⟩
  case frame =>
    have hdo := does_of_exec e
    have hout : t.out = s.out := hdo.out_eq_of_unit_ne (by simp [hu])
    exact ⟨hdo.crc16_eq_of_unit_ne (by simp [hu]), hout, fun a => congrArg (·[a]?) hout, hdo.pending_eq⟩
  case reads =>
    obtain ⟨ht, hresp⟩ := exec_alike ⟨hf, by simp [hu], fun _ => hc⟩ e e'
    exact ⟨ht.crc32 hu, ht.flt, hresp⟩
  case interleaved =>
    obtain ⟨t', hr', ha⟩ := runAll_send_filter_unit (u := .c32) (s' := { s with pending := _ }) hp rfl
      ⟨rfl, fun _ => rfl, fun _ => rfl⟩ hr ht
    exact ⟨t', hr', ha.flt.symm.trans ht, (ha.crc32 rfl).symm⟩

/-- Settles O33: `f` is the model's iteration, and `step32` is eight of them. -/
theorem step32IsEightIterations : Obligations.Step32IsEightIterations := by
  refine ⟨?_, by decide, by decide, by decide, by decide, by decide, by decide⟩
  intro c b f
  have hf : crcBit 0xEDB88320#32 = f := rfl
  simp only [step32, crcByte, crcBits, hf]

/-- Settles O37, by what `C32INIT` does and what `C32RD` does after it. -/
theorem c32InitLoadsTheSeed : Obligations.C32InitLoadsTheSeed := by
  refine ⟨fun s h => exec_of_does (.c32init h), fun s => exec_of_flt_ne_none _, decode_encode .c32init, fun s t h e => ?_⟩
  cases e.symm.trans (exec_of_does (.c32init h))
  exact exec_of_does (.c32rd seed32 h rfl)

/-- Settles O38, by what `C32UPD` does in each case. -/
theorem c32UpdStepsTheRunningValue : Obligations.C32UpdStepsTheRunningValue :=
  ⟨fun b _ c h hc => exec_of_does (.c32upd b c h hc), fun b _ h hc => exec_of_does (.c32updUnwritten b h hc),
    fun _ _ => exec_of_flt_ne_none _, fun b => decode_op_add_operand (op := 0x21#8) (i := .c32upd b) (by decide) rfl,
    by decide, by decide⟩

/-- Settles O39, by what `C32RD` does in each case; the message `123456789` is the rule's example. -/
theorem c32RdAnswersTheComplement : Obligations.C32RdAnswersTheComplement :=
  ⟨fun _ c h hc => exec_of_does (.c32rd c h hc), fun _ h hc => exec_of_does (.c32rdUnwritten h hc),
    fun _ => exec_of_flt_ne_none _, decode_encode .c32rd, by decide +kernel, by decide⟩

end Sys2Proof.Machine
end

section
/-! SUPPORT. Laws of SER: the bytes of `LE` (R69), a run's commands that emit their bytes and nothing else (R76, R77, R80), and
a run whose fault is already recorded (R85). -/

namespace Sys2Proof.Machine

/-- R69: byte k of `LE`. -/
theorem getElem?_le {n w k : Nat} (hk : k < n) (v : BitVec w) : (le n v)[k]? = some (v.extractLsb' (8 * k) 8) := by
  simp [le, hk]

/-- R69: byte k of `LE` as a number. -/
theorem toNat_getElem?_le {n w k : Nat} (hk : k < n) (v : BitVec w) :
    ((le n v)[k]?).map BitVec.toNat = some (v.toNat / 2 ^ (8 * k) % 256) := by
  rw [getElem?_le hk, Option.map_some, BitVec.extractLsb'_toNat, Nat.shiftRight_eq_div_pow]

/-- `LE` of a byte is the byte. -/
@[simp] theorem le_one_byte (v : Byte) : le 1 v = [v] := by
  have h : le 1 v = [v.extractLsb' 0 8] := rfl
  rw [h, BitVec.extractLsb'_eq_self]

/-- A command that, with `flt` clear, appends its bytes to `out`, answers `none` and does nothing else. -/
def Emits (i : Instr) : Prop :=
  ∀ s : State, s.flt = none → Does i s { s with out := s.out ++ emitted i, responses := s.responses ++ [.none] }

theorem emits_put8 (v : BitVec 8) : Emits (.put8 v) := fun _ h => .put8 v h

theorem emits_put16 (v : BitVec 16) : Emits (.put16 v) := fun _ h => .put16 v h

theorem emits_put32 (v : BitVec 32) : Emits (.put32 v) := fun _ h => .put32 v h

theorem emits_putc {cp : CodePoint} (hcp : cp.toNat ≤ 0x7F) : Emits (.putc cp) := fun _ h => .putc cp h hcp

/-- A run takes commands that emit, before the others, by appending the bytes of each in order. -/
theorem runAll_send_emits {is rest : List Instr} {s : State} (hf : s.flt = none) (hi : ∀ i ∈ is, Emits i)
    (hp : s.pending = send (is ++ rest)) :
    runAll s = runAll { s with
      pending := send rest
      out := s.out ++ is.flatMap emitted
      responses := s.responses ++ is.map fun _ => .none } := by
  induction is generalizing s with
  | nil => simp [← show s.pending = send rest from hp]
  | cons i is ih =>
    obtain ⟨hhead, htail⟩ := List.forall_mem_cons.1 hi
    have hfirst : Does i { s with pending := send (is ++ rest) } _ := hhead _ hf
    refine (hfirst.runAll_eq hp).trans ((ih ?_ htail rfl).trans ?_)
    · exact hf
    · simp

/-- A run of commands that emit. -/
theorem runAll_send_map_emits {α : Type} {command : α → Instr} {as : List α} {s : State} (hf : s.flt = none)
    (hi : ∀ a ∈ as, Emits (command a)) (hp : s.pending = send (as.map command)) :
    runAll s = .next { s with
      pending := []
      out := s.out ++ as.flatMap fun a => emitted (command a)
      responses := s.responses ++ as.map fun _ => .none } := by
  rw [runAll_send_emits (rest := []) hf (List.forall_mem_map.2 hi) (by rw [hp, List.append_nil]), runAll_nil rfl]
  simp [send, List.flatMap_map, Function.comp_def]

/-- R85: with `flt` set a run of command words ignores each. -/
theorem runAll_command_faulted {ws : List CmdWord} {s : State} {f : FaultCode} (hf : s.flt = some f)
    (hp : s.pending = ws.map .command) :
    runAll s = .next { s with pending := [], responses := s.responses ++ ws.map fun _ => .none } := by
  induction ws generalizing s with
  | nil => simp [runAll_nil hp, ← show s.pending = [] from hp]
  | cons w ws ih =>
    have hstep : step s = .next (State.ignoreWord { s with pending := ws.map .command }) := by
      rw [step, hostStep, hp]
      exact issueWord_faulted hf
    refine (runAll_cons hp hstep rfl).trans ((ih ?_ rfl).trans ?_)
    · exact hf
    · simp

/-- R85: after a command that leaves `flt` set, a run ignores the other commands. -/
theorem Does.runAll_faulted {i : Instr} {is : List Instr} {s t : State} {f : FaultCode}
    (h : Does i { s with pending := send is } t) (hp : s.pending = send (i :: is)) (ht : t.flt = some f) :
    runAll s = .next { t with pending := [], responses := t.responses ++ is.map fun _ => .none } := by
  have hpt : t.pending = (is.map encode).map .command := by simp [h.pending_eq, send]
  rw [h.runAll_eq hp, runAll_command_faulted ht hpt, List.map_map]
  rfl

/-- R80: the bytes of ASCII characters are one byte each. -/
theorem flatMap_emitted_putc (cs : List CodePoint) :
    (cs.flatMap fun c => emitted (.putc c)) = cs.map fun c => c.extractLsb' 0 8 := by
  simp only [emitted, le_one_byte, List.map_eq_flatMap]

end Sys2Proof.Machine
end

section
/-! The statements of the family 42_serializer.md. -/

namespace Sys2Proof.Machine

/-- Settles O44: byte k is bits 8k+7 to 8k, which is a quotient modulo 256; the widths 2 and 4 list them. -/
theorem leIsLowByteFirst : Obligations.LeIsLowByteFirst :=
  ⟨le_one_byte, fun _ => rfl, fun _ => rfl, fun _ v _ hk => toNat_getElem?_le hk v, by decide, by decide, by decide⟩

/-- Settles O51: each `PUT8` emits its byte. -/
theorem byteArraysPassThrough : Obligations.ByteArraysPassThrough := by
  intro s a hf hp
  rw [runAll_send_map_emits hf (fun v _ => emits_put8 v) hp]
  simp [emitted]

/-- Settles O52: each `PUT16` or `PUT32` emits the bytes of its element. -/
theorem arraysAreEmittedInAscendingIndex : Obligations.ArraysAreEmittedInAscendingIndex :=
  ⟨fun _ _ hf hp => runAll_send_map_emits hf (fun v _ => emits_put16 v) hp,
    fun _ _ hf hp => runAll_send_map_emits hf (fun v _ => emits_put32 v) hp, fun _ _ _ _ _ => by simp⟩

/-- Settles O53: the ASCII characters emit one byte each; the first other one records the fault, and the rest is ignored. -/
theorem textStopsAtTheFirstNonAsciiCharacter : Obligations.TextStopsAtTheFirstNonAsciiCharacter := by
  refine ⟨fun s cs hf hcs hp => ?ascii, fun s cs bad after hf hcs hbad hp => ?stopped⟩
  case ascii =>
    rw [runAll_send_map_emits hf (fun c hc => emits_putc (hcs c hc)) hp, flatMap_emitted_putc]
  case stopped =>
    have hi : ∀ i ∈ cs.map Instr.putc, Emits i := List.forall_mem_map.2 fun c hc => emits_putc (hcs c hc)
    rw [List.map_append, List.map_cons] at hp
    rw [runAll_send_emits hf hi hp]
    refine ⟨_, Does.runAll_faulted (.putcNonAscii bad hf (by omega)) rfl rfl, rfl, ?_⟩
    simp [List.flatMap_map, flatMap_emitted_putc]

/-- Settles O46, by what `PUT8` does. -/
theorem put8AppendsItsByte : Obligations.Put8AppendsItsByte :=
  ⟨fun v _ h => le_one_byte v ▸ exec_of_does (emits_put8 v _ h), fun _ _ => exec_of_flt_ne_none _,
    fun v => decode_op_add_operand (op := 0x31#8) (i := .put8 v) (by decide) rfl, by decide⟩

/-- Settles O47, by what `PUT16` does. -/
theorem put16AppendsTwoBytesLowFirst : Obligations.Put16AppendsTwoBytesLowFirst :=
  ⟨fun v _ h => exec_of_does (emits_put16 v _ h), fun _ _ => exec_of_flt_ne_none _,
    fun v => decode_op_add_operand (op := 0x32#8) (i := .put16 v) (by decide) rfl, by decide⟩

/-- Settles O48, by what `PUT32` does. -/
theorem put32AppendsFourBytesLowFirst : Obligations.Put32AppendsFourBytesLowFirst :=
  ⟨fun v _ h => exec_of_does (emits_put32 v _ h), fun _ _ => exec_of_flt_ne_none _,
    fun v => decode_op_add_operand (op := 0x34#8) (i := .put32 v) (by decide) (by simp [encode]), by decide⟩

/-- Settles O49, by what `PUTC` does on each side of 0x80, and the operation under the parameter's other value. -/
theorem putcAppendsAsciiAndFaultsAbove : Obligations.PutcAppendsAsciiAndFaultsAbove := by
  have hbyte (cp : CodePoint) : le 1 (cp.extractLsb' 0 8) = [cp.extractLsb' 0 8] := le_one_byte _
  refine ⟨fun cp s h hcp => ?ascii, fun cp s h hcp => exec_of_does (.putcNonAscii cp h (by omega)),
    fun _ _ => exec_of_flt_ne_none _,
    fun cp => decode_op_add_operand (op := 0x38#8) (i := .putc cp) (by decide) rfl, fun cp s _ => ?truncated⟩
  case ascii => exact hbyte cp ▸ exec_of_does (emits_putc hcp s h)
  case truncated => exact hbyte cp ▸ State.emitChar_truncate cp s

end Sys2Proof.Machine
end

section
/-! SUPPORT. Laws of faults: the code a command records is the one its own test names (R82, R87), a word that records one has no
other effect (R84), and the words that are illegal (R35, R82). -/

namespace Sys2Proof.Machine

/-- A command's own test does not look at what the host has yet to send. -/
@[simp] theorem ownTest_withPending (i : Instr) (s : State) (rest : List HostEvent) :
    ownTest i { s with pending := rest } = ownTest i s := by
  cases i <;> rfl

/-- R82: ILLEGAL_CMD is no command's own fault. -/
theorem ownTest_ne_illegalCmd (i : Instr) (s : State) : ownTest i s ≠ some .illegalCmd := by
  cases i <;> simp [ownTest]

/-- R82: the commands that need `crc16`. -/
theorem ownTest_eq_uninit16_iff (i : Instr) (s : State) :
    ownTest i s = some .uninit16 ↔ s.crc16 = none ∧ (i = .c16rd ∨ (∃ b, i = .c16upd b) ∨ ∃ x, i = .c16chk x) := by
  cases i <;> simp [ownTest]

/-- R82: the commands that need `crc32`. -/
theorem ownTest_eq_uninit32_iff (i : Instr) (s : State) :
    ownTest i s = some .uninit32 ↔ s.crc32 = none ∧ (i = .c32rd ∨ ∃ b, i = .c32upd b) := by
  cases i <;> simp [ownTest]

/-- R82: the characters that are not ASCII. -/
theorem ownTest_eq_nonAscii_iff (i : Instr) (s : State) :
    ownTest i s = some .nonAscii ↔ ∃ cp, i = .putc cp ∧ 0x80 ≤ cp.toNat := by
  cases i <;> simp [ownTest]

/-- R87 (3): with `flt` clear a command either raises the code its own test names or passes it and leaves `flt` clear. -/
theorem Does.ownTest_cases {i : Instr} {s t : State} (h : Does i s t) (hs : s.flt = none) :
    (∃ f, ownTest i s = some f ∧ t = s.raiseFault f) ∨ (ownTest i s = none ∧ t.flt = none) := by
  cases h with
  | ignored i f h => exact absurd (h.symm.trans hs) (Option.some_ne_none f)
  | c16updUnwritten _ _ hc | c16rdUnwritten _ hc | c16chkUnwritten _ _ hc => exact .inl ⟨.uninit16, if_pos hc, rfl⟩
  | c32updUnwritten _ _ hc | c32rdUnwritten _ hc => exact .inl ⟨.uninit32, if_pos hc, rfl⟩
  | putcNonAscii cp _ hcp => exact .inl ⟨.nonAscii, if_pos (by omega), rfl⟩
  | c16upd _ c _ hc | c16rd c _ hc | c16chk _ c _ hc | c32upd _ c _ hc | c32rd c _ hc =>
    exact .inr ⟨if_neg (hc ▸ Option.some_ne_none c), hs⟩
  | putc cp _ hcp => exact .inr ⟨if_neg (by omega), hs⟩
  | c16init | c32init | put8 | put16 | put32 => exact .inr ⟨rfl, hs⟩

/-- R87 (3): the code recorded by a command issued with `flt` clear is its own test's. -/
theorem Does.flt_eq_ownTest {i : Instr} {s t : State} (h : Does i s t) (hs : s.flt = none) : t.flt = ownTest i s := by
  obtain ⟨f, hf, rfl⟩ | ⟨hnone, ht⟩ := h.ownTest_cases hs
  · exact hf.symm
  · exact ht.trans hnone.symm

/-- R84: a command that records a fault does nothing else. -/
theorem Does.eq_raiseFault {i : Instr} {s t : State} {f : FaultCode} (h : Does i s t) (hs : s.flt = none)
    (ht : t.flt = some f) : t = s.raiseFault f := by
  obtain ⟨g, -, rfl⟩ | ⟨-, hnone⟩ := h.ownTest_cases hs
  · rw [Option.some.inj ht]
  · exact absurd (ht.symm.trans hnone) (Option.some_ne_none f)

/-- What a word issued with `flt` clear does: it is illegal (R36, R37), or it is a command (R87). -/
theorem issueWord_cases {w : CmdWord} {s t : State} (hs : s.flt = none) (e : issueWord w s = .next t) :
    ((∀ i, decode w ≠ .command i) ∧ t = s.raiseFault .illegalCmd) ∨ ∃ i, decode w = .command i ∧ Does i s t := by
  by_cases hd : ∃ i, decode w = .command i
  · obtain ⟨i, hd⟩ := hd
    exact .inr ⟨i, hd, does_of_exec (issueWord_command hd ▸ e)⟩
  · rw [issueWord_illegal hs (not_exists.1 hd)] at e
    cases e
    exact .inl ⟨not_exists.1 hd, rfl⟩

/-- R84: a word that records a fault does nothing else. -/
theorem eq_raiseFault_of_issueWord {w : CmdWord} {s t : State} {f : FaultCode} (hs : s.flt = none)
    (e : issueWord w s = .next t) (ht : t.flt = some f) : t = s.raiseFault f := by
  obtain ⟨-, rfl⟩ | ⟨i, -, hdo⟩ := issueWord_cases hs e
  · rw [Option.some.inj ht]
  · exact hdo.eq_raiseFault hs ht

/-- R35: a word is no command exactly when no row's masked bits match. -/
theorem decode_ne_command_iff (w : CmdWord) :
    (∀ i, decode w ≠ .command i) ↔ ∀ r ∈ opcodeMap, w &&& r.mask ≠ r.pattern := by
  constructor
  · intro hd r hr hw
    exact hd (r.command w) ((decode_eq_command_iff w _).2 ⟨r, hr, (r.holds_iff w).2 hw, rfl⟩)
  · intro hrows i hd
    obtain ⟨r, hr, hw, -⟩ := (decode_eq_command_iff w i).1 hd
    exact hrows r hr ((r.holds_iff w).1 hw)

/-- A step with a command word next issues it. -/
theorem step_command {s : State} {w : CmdWord} {rest : List HostEvent} (hp : s.pending = .command w :: rest) :
    step s = issueWord w { s with pending := rest } := by
  rw [step, hostStep, hp]
  rfl

end Sys2Proof.Machine
end

section
/-! The statements of the family 60_exceptions.md. -/

namespace Sys2Proof.Machine

/-- Settles O7: a step issues the word, which is ignored, is illegal, or is a command with the outcome of its own test. -/
theorem checksAreMadeInOrder : Obligations.ChecksAreMadeInOrder := by
  intro s w rest hp
  have issue (i : Instr) (hd : decode w = .command i) : ∃ t, step s = .next t ∧ Does i { s with pending := rest } t := by
    obtain ⟨t, ht⟩ := exec_next i { s with pending := rest }
    exact ⟨t, (step_command hp).trans ((issueWord_command hd).trans ht), does_of_exec ht⟩
  refine ⟨fun hs => ?ignored, fun hs hd => ?illegal, fun i f hs hd hf => ?fails, fun i hs hd hf => ?passes⟩
  case ignored =>
    obtain ⟨f, hs⟩ := Option.ne_none_iff_exists'.1 hs
    exact (step_command hp).trans (issueWord_faulted hs)
  case illegal => exact (step_command hp).trans (issueWord_illegal hs hd)
  case fails =>
    obtain ⟨t, ht, hdo⟩ := issue i hd
    have hflt : t.flt = some f := by rw [hdo.flt_eq_ownTest hs, ownTest_withPending, hf]
    rw [ht, hdo.eq_raiseFault hs hflt]
    rfl
  case passes =>
    obtain ⟨t, ht, hdo⟩ := issue i hd
    exact ⟨t, ht, by rw [hdo.flt_eq_ownTest hs, ownTest_withPending, hf]⟩

/-- Settles O8: an illegal word raises ILLEGAL_CMD, and a command the code of its own test, which is one of the other three. -/
theorem faultCausesAreExactlyTheFour : Obligations.FaultCausesAreExactlyTheFour := by
  refine ⟨⟨rfl, rfl, rfl, rfl⟩, fun w s t hs e => ?_⟩
  rw [← decode_ne_command_iff]
  have hcode (f : FaultCode) (ht : t.flt = some f) := eq_raiseFault_of_issueWord hs e ht
  obtain ⟨hd, rfl⟩ | ⟨i, hd, hdo⟩ := issueWord_cases hs e
  · exact ⟨iff_of_true rfl hd, by simp [hd], by simp [hd], by simp [hd], hcode⟩
  · rw [hdo.flt_eq_ownTest hs] at hcode ⊢
    simp only [hd, Decoded.command.injEq]
    exact ⟨iff_of_false (ownTest_ne_illegalCmd i s) fun h => h i rfl, ownTest_eq_uninit16_iff i s, ownTest_eq_uninit32_iff i s,
      ownTest_eq_nonAscii_iff i s, hcode⟩

/-- Settles O9: the word only records its code, and with a code recorded every word is ignored. -/
theorem faultingWordHasNoPartialEffect : Obligations.FaultingWordHasNoPartialEffect :=
  fun _ _ _ _ hs e ht => ⟨eq_raiseFault_of_issueWord hs e ht, fun _ => issueWord_faulted ht⟩

/-- Settles O10, by the run of command words with a fault recorded. -/
theorem faultedBlockIgnoresEveryWord : Obligations.FaultedBlockIgnoresEveryWord := by
  intro s ws hs hp
  obtain ⟨f, hf⟩ := Option.ne_none_iff_exists'.1 hs
  exact runAll_command_faulted hf hp

end Sys2Proof.Machine
end

section
/-! SUPPORT. Laws of the block's state over a step: the reset event (R94), what a command keeps (R21, R94), and a command from
two states whose block is the same (R18, R99). -/

namespace Sys2Proof.Machine

/-- A step with the reset event next takes it (R94). -/
theorem step_reset {s : State} {rest : List HostEvent} (hp : s.pending = .reset :: rest) :
    step s = .next (State.hostReset { s with pending := rest }) := by
  rw [step, hostStep, hp]
  rfl

/-- R94: no command makes a written `crc16` unwritten. -/
theorem Does.crc16_ne_none {i : Instr} {s t : State} (h : Does i s t) (hs : s.crc16 ≠ none) : t.crc16 ≠ none := by
  obtain hsame | ⟨-, ht⟩ | ⟨b, c, -, -, ht⟩ := h.crc16_cases
  · exact hsame ▸ hs
  · exact ht ▸ Option.some_ne_none _
  · exact ht ▸ Option.some_ne_none _

/-- R94: no command makes a written `crc32` unwritten. -/
theorem Does.crc32_ne_none {i : Instr} {s t : State} (h : Does i s t) (hs : s.crc32 ≠ none) : t.crc32 ≠ none := by
  obtain hsame | ⟨-, ht⟩ | ⟨b, c, -, -, ht⟩ := h.crc32_cases
  · exact hsame ▸ hs
  · exact ht ▸ Option.some_ne_none _
  · exact ht ▸ Option.some_ne_none _

/-- R21, R84, R85: a command appends its bytes to `out`, or none when it ends with a fault recorded. -/
theorem Does.out_eq {i : Instr} {s t : State} (h : Does i s t) :
    t.out = s.out ++ if t.flt = none then emitted i else [] := by
  cases h with
  | ignored i f h => simp [h]
  | c16updUnwritten | c16rdUnwritten | c16chkUnwritten | c32updUnwritten | c32rdUnwritten | putcNonAscii => simp
  | c16init h | c16upd _ _ h | c16rd _ h | c16chk _ _ h | c32init h | c32upd _ _ h | c32rd _ h | put8 _ h | put16 _ h
  | put32 _ h | putc _ h => simp [h, emitted]

/-- R99: a read that records no fault leaves the block as it was. -/
theorem Does.sameBlock_of_read {i : Instr} {s t : State} (h : Does i s t)
    (hi : i = .c16rd ∨ (∃ x, i = .c16chk x) ∨ i = .c32rd) (hflt : t.flt = s.flt) : SameBlock t s := by
  cases h with
  | ignored | c16rdUnwritten | c16rd | c16chkUnwritten | c16chk | c32rdUnwritten | c32rd => exact ⟨rfl, rfl, hflt, rfl⟩
  | _ => simp at hi

/-- R18: a command takes two states whose block is the same to two whose block is the same. -/
theorem sameBlock_of_exec {i : Instr} {s s' t t' : State} (hb : SameBlock s s') (e : exec i s = .next t)
    (e' : exec i s' = .next t') : SameBlock t t' := by
  obtain ⟨h16, h32, hflt, hout⟩ := hb
  have hdo := does_of_exec e
  have hagree (u : CsbUnit) : AgreeOn u s s' := ⟨hflt, fun _ => h16, fun _ => h32⟩
  obtain ⟨v, -, hdo', hkeep, -, -⟩ := hdo.alike (hagree i.unit)
  cases e'.symm.trans (exec_of_does hdo')
  have hfltAfter : t.flt = t'.flt := (hkeep i.unit (hagree _)).flt
  refine ⟨(hkeep .c16 (hagree _)).crc16 rfl, (hkeep .c32 (hagree _)).crc32 rfl, hfltAfter, ?_⟩
  rw [hdo.out_eq, hdo'.out_eq, hout, hfltAfter]

end Sys2Proof.Machine
end

section
/-! The statements of the family 70_reset_and_hazards.md. -/

namespace Sys2Proof.Machine

/-- Settles O2: the reset event gives the reset values, and every other step, by cases of what a step does, keeps a recorded
fault and the written registers and at most appends to `out`. -/
theorem onlyResetClearsWhatResetClears : Obligations.OnlyResetClearsWhatResetClears := by
  refine ⟨fun s rest hp => ⟨_, step_reset hp, rfl, rfl, rfl, rfl⟩, fun s t e hno => ?_⟩
  cases steps_of_step e with
  | reset rest hp => exact absurd hp (hno rest)
  | idle _ ht | ignored _ _ _ _ _ ht => subst ht; exact ⟨fun _ => rfl, id, id, List.prefix_rfl⟩
  | illegal _ _ _ _ h _ ht => subst ht; exact ⟨absurd h, id, id, List.prefix_rfl⟩
  | command _ _ _ _ h _ hdo =>
    exact ⟨absurd h, hdo.crc16_ne_none, hdo.crc32_ne_none, hdo.out_eq ▸ List.prefix_append _ _⟩

/-- Settles O43: a read leaves the block as it was, and a command does the same from two states whose block is the same. -/
theorem readsAreHarmless : Obligations.ReadsAreHarmless := by
  intro i s t hi e hflt
  have hdo := does_of_exec e
  have hb : SameBlock t s := hdo.sameBlock_of_read hi hflt
  exact ⟨hb, hdo.pending_eq, fun _ _ _ => sameBlock_of_exec hb⟩

end Sys2Proof.Machine
end

section
/-! SUPPORT. Laws of an event and of a run of events: every event completes (R100, R103), a command keeps the invariant on
UNINIT codes (R82, R84), and two states with equal registers take a word, a step and a run alike (R18). -/

namespace Sys2Proof.Machine

/-- R82, R84: a command keeps it that a recorded UNINIT code means an unwritten register. -/
theorem Does.faultMatchesState {i : Instr} {s t : State} (h : Does i s t) (hs : s.flt = none) : FaultMatchesState t := by
  obtain ⟨f, hf, rfl⟩ | ⟨-, ht⟩ := h.ownTest_cases hs
  · refine ⟨fun e => ?_, fun e => ?_⟩
    · cases e
      exact ((ownTest_eq_uninit16_iff i s).1 hf).1
    · cases e
      exact ((ownTest_eq_uninit32_iff i s).1 hf).1
  · simp [FaultMatchesState, ht]

/-- R40, R100: issuing a word completes, with one response, and leaves the host's list alone. -/
theorem issueWord_completes (w : CmdWord) (s : State) :
    ∃ t r, issueWord w s = .next t ∧ t.pending = s.pending ∧ t.responses = s.responses ++ [r] := by
  cases h : s.flt with
  | some f => exact ⟨_, _, issueWord_faulted h, rfl, rfl⟩
  | none =>
    by_cases hd : ∃ i, decode w = .command i
    · obtain ⟨i, hd⟩ := hd
      obtain ⟨t, ht⟩ := exec_next i s
      obtain ⟨r, hr⟩ := (does_of_exec ht).responses_eq
      exact ⟨t, r, (issueWord_command hd).trans ht, (does_of_exec ht).pending_eq, hr⟩
    · exact ⟨_, _, issueWord_illegal h (not_exists.1 hd), rfl, rfl⟩

/-- R103: a step takes the next event off the host's list, and answers one response to a command word, none to a reset. -/
theorem step_completes {s : State} {e : HostEvent} {rest : List HostEvent} (hp : s.pending = e :: rest) :
    ∃ t rs, step s = .next t ∧ t.pending = rest ∧ t.responses = s.responses ++ rs ∧ rs.length = commandCount [e] := by
  cases e with
  | reset => exact ⟨_, [], step_reset hp, rfl, (List.append_nil _).symm, rfl⟩
  | command w =>
    obtain ⟨t, r, ht, hpt, hr⟩ := issueWord_completes w { s with pending := rest }
    exact ⟨t, [r], (step_command hp).trans ht, hpt, hr, rfl⟩

theorem commandCount_cons (e : HostEvent) (es : List HostEvent) :
    commandCount (e :: es) = commandCount [e] + commandCount es := by
  cases e with
  | command w => exact Nat.add_comm _ _
  | reset => exact (Nat.zero_add _).symm

/-- A step with nothing pending (notes/assumptions/3.md). -/
theorem step_idle {s : State} (hp : s.pending = []) : step s = .next s := by
  rw [step, hostStep, hp]

/-- R102: the run of a list of events ends, with one response for each command word. -/
theorem runAll_completes {es : List HostEvent} {s : State} (hp : s.pending = es) :
    ∃ t rs, runAll s = .next t ∧ Ended t ∧ t.responses = s.responses ++ rs ∧ rs.length = commandCount es := by
  induction es generalizing s with
  | nil => exact ⟨s, [], runAll_nil hp, hp, (List.append_nil _).symm, rfl⟩
  | cons e es ih =>
    obtain ⟨u, first, hu, hpu, hfirst, hcount⟩ := step_completes hp
    obtain ⟨t, later, ht, hend, hlater, hcountLater⟩ := ih hpu
    refine ⟨t, first ++ later, (runAll_cons hp hu hpu).trans ht, hend, ?_, ?_⟩
    · rw [hlater, hfirst, List.append_assoc]
    · rw [List.length_append, hcount, hcountLater, commandCount_cons e es]

/-- R18: from `s` and from `s'` the same was done on the way to `t` and to `t'`: the registers agree at the end, and the same
responses and the same bytes were appended. -/
structure SameDone (s s' t t' : State) : Prop where
  registers : ∀ u, AgreeOn u t t'
  appended : ∃ rs bytes, t.responses = s.responses ++ rs ∧ t'.responses = s'.responses ++ rs ∧
    t.out = s.out ++ bytes ∧ t'.out = s'.out ++ bytes

theorem SameDone.refl {s s' : State} (ha : ∀ u, AgreeOn u s s') : SameDone s s' s s' :=
  ⟨ha, [], [], by simp⟩

theorem SameDone.trans {s s' u u' t t' : State} (h : SameDone s s' u u') (h' : SameDone u u' t t') :
    SameDone s s' t t' := by
  obtain ⟨rs, bytes, hr, hr', ho, ho'⟩ := h.appended
  obtain ⟨rs₂, bytes₂, hr₂, hr₂', ho₂, ho₂'⟩ := h'.appended
  exact ⟨h'.registers, rs ++ rs₂, bytes ++ bytes₂, by simp [*]⟩

/-- R18: a command does the same in two states whose registers agree. -/
theorem Does.sameDone {i : Instr} {s s' t : State} (h : Does i s t) (ha : ∀ u, AgreeOn u s s') :
    ∃ t', Does i s' t' ∧ SameDone s s' t t' := by
  obtain ⟨t', r, hdo', hkeep, hr, hr'⟩ := h.alike (ha i.unit)
  have hagree (u : CsbUnit) : AgreeOn u t t' := hkeep u (ha u)
  refine ⟨t', hdo', hagree, [r], _, hr, hr', h.out_eq, ?_⟩
  rw [hdo'.out_eq, (hagree i.unit).flt]

/-- R18: a word does the same in two states whose registers agree. -/
theorem sameDone_of_issueWord {w : CmdWord} {s s' t t' : State} (ha : ∀ u, AgreeOn u s s')
    (e : issueWord w s = .next t) (e' : issueWord w s' = .next t') : SameDone s s' t t' := by
  have hflt : s.flt = s'.flt := (ha .ser).flt
  cases h : s.flt with
  | some f =>
    cases e.symm.trans (issueWord_faulted h)
    cases e'.symm.trans (issueWord_faulted (hflt ▸ h))
    exact ⟨fun u => (ha u).respond .none, [.none], [], by simp⟩
  | none =>
    obtain ⟨hd, rfl⟩ | ⟨i, hd, hdo⟩ := issueWord_cases h e
    · cases e'.symm.trans (issueWord_illegal (hflt ▸ h) hd)
      exact ⟨fun u => (ha u).raiseFault .illegalCmd, [.none], [], by simp⟩
    · obtain ⟨v, hdo', hsame⟩ := hdo.sameDone ha
      cases e'.symm.trans ((issueWord_command hd).trans (exec_of_does hdo'))
      exact hsame

/-- R18: the run of a list of words does the same from two states whose registers agree. -/
theorem sameDone_of_runAll {ws : List CmdWord} {s s' t t' : State} (ha : ∀ u, AgreeOn u s s')
    (hp : s.pending = ws.map .command) (hp' : s'.pending = ws.map .command) (hr : runAll s = .next t)
    (hr' : runAll s' = .next t') : SameDone s s' t t' := by
  induction ws generalizing s s' with
  | nil =>
    cases hr.symm.trans (runAll_nil hp)
    cases hr'.symm.trans (runAll_nil hp')
    exact .refl ha
  | cons w ws ih =>
    obtain ⟨u, -, hu, hpu, -⟩ := issueWord_completes w { s with pending := ws.map .command }
    obtain ⟨u', -, hu', hpu', -⟩ := issueWord_completes w { s' with pending := ws.map .command }
    have hfirst := sameDone_of_issueWord (fun v => (ha v).withPending _ _) hu hu'
    rw [runAll_cons hp ((step_command hp).trans hu) hpu] at hr
    rw [runAll_cons hp' ((step_command hp').trans hu') hpu'] at hr'
    have hlater := ih hfirst.registers hpu hpu' hr hr'
    exact ⟨hlater.registers, (hfirst.trans hlater).appended⟩

end Sys2Proof.Machine
end

section
/-! The statements of the family other: steps, runs, and the encoding. -/

namespace Sys2Proof.Machine

/-- Settles O14, by cases of what a step does: a command records its own test's code; every other step keeps the code and the
registers, or leaves a code that is no UNINIT code. -/
theorem stepKeepsUninitMatchingUnwritten : Obligations.StepKeepsUninitMatchingUnwritten := by
  intro s t hs e
  cases steps_of_step e with
  | idle _ ht => exact ht ▸ hs
  | reset _ _ ht => subst ht; exact ⟨fun _ => rfl, fun _ => rfl⟩
  | ignored _ _ _ _ _ ht => subst ht; exact hs
  | illegal _ _ _ _ _ _ ht => subst ht; exact ⟨nofun, nofun⟩
  | command _ _ _ _ h _ hdo => exact hdo.faultMatchesState h

/-- Settles O16, by cases of the command. -/
theorem decodeOfEncodeIsTheCommand : Obligations.DecodeOfEncodeIsTheCommand := decode_encode

/-- Settles O17, by the row of the opcode map that holds of the word. -/
theorem encodeOfDecodeIsTheWord : Obligations.EncodeOfDecodeIsTheWord := fun _ _ => encode_of_decode

/-- Settles O4, by induction on the words, each doing the same in both states. -/
theorem equalRegistersBehaveAlike : Obligations.EqualRegistersBehaveAlike := by
  intro ws s₁ s₂ t₁ t₂ h16 h32 hflt hp₁ hp₂ hr₁ hr₂
  have h := sameDone_of_runAll (fun _ => ⟨hflt, fun _ => h16, fun _ => h32⟩) hp₁ hp₂ hr₁ hr₂
  exact ⟨(h.registers .c16).crc16 rfl, (h.registers .c32).crc32 rfl, (h.registers .ser).flt, h.appended⟩

/-- Settles O12, by the next event, if there is one. -/
theorem everyStepCompletesOneEvent : Obligations.EveryStepCompletesOneEvent := by
  intro s
  cases hp : s.pending with
  | nil => exact ⟨s, step_idle hp, hp, nofun, nofun⟩
  | cons e rest =>
    obtain ⟨t, rs, ht, hpt, hr, hcount⟩ := step_completes hp
    refine ⟨t, ht, hpt, fun w _ he => ?word, fun _ he => ?reset⟩
    case word =>
      cases he
      rw [hr, List.length_append, hcount]
      rfl
    case reset =>
      cases he
      rw [hr, List.eq_nil_of_length_eq_zero hcount, List.append_nil]

/-- Settles O13, by induction on the host's list. -/
theorem runEndsWithTheListExhausted : Obligations.RunEndsWithTheListExhausted := fun _ => runAll_completes rfl

/-- Settles O3, by what a step does with the reset event next. -/
theorem resetEventKeepsOnlyTheHostsLists : Obligations.ResetEventKeepsOnlyTheHostsLists := fun _ _ => step_reset

/-- Settles O5: the step issues the word, which has the command's meaning. -/
theorem stepRunsTheDecodedCommand : Obligations.StepRunsTheDecodedCommand :=
  fun _ _ _ _ hp _ hd => (step_command hp).trans (issueWord_command hd)

/-- Settles O6: the step with nothing pending leaves the state as it is. -/
theorem nothingIssuedNothingChanges : Obligations.NothingIssuedNothingChanges := fun _ => step_idle

/-- Settles O15: after reset no code is recorded. -/
theorem resetMeetsUninitMatchingUnwritten : Obligations.ResetMeetsUninitMatchingUnwritten :=
  ⟨fun _ => rfl, fun _ => rfl⟩

/-- Settles O20, by decoding the eleven words. -/
theorem exampleWordsOfTheOpcodeMapDecode : Obligations.ExampleWordsOfTheOpcodeMapDecode := by
  unfold Obligations.ExampleWordsOfTheOpcodeMapDecode
  decide

end Sys2Proof.Machine
end

section
/-! SUPPORT. Laws of the checksum step at every width and constant: the table form, injectivity, and the step over the bytes of
a value, low byte first (R53, R54, R65, R66). -/

namespace Sys2Proof.Machine

variable {w : Nat}

theorem crcByte_xor (poly c₁ c₂ : BitVec w) (b₁ b₂ : Byte) :
    crcByte poly (c₁ ^^^ c₂) (b₁ ^^^ b₂) = crcByte poly c₁ b₁ ^^^ crcByte poly c₂ b₂ := by
  have h : c₁ ^^^ c₂ ^^^ (b₁ ^^^ b₂).setWidth w = c₁ ^^^ b₁.setWidth w ^^^ (c₂ ^^^ b₂.setWidth w) := by
    rw [BitVec.setWidth_xor]
    ac_rfl
  rw [crcByte, h, crcBits_xor]
  rfl

/-- R53 (c), R65 (c): the byte may be moved into the running value. -/
theorem crcByte_eq_zero_byte (poly c : BitVec w) (b : Byte) : crcByte poly c b = crcByte poly (c ^^^ b.setWidth w) 0#8 := by
  simp [crcByte]

theorem crcBits_add (poly : BitVec w) (m n : Nat) (c : BitVec w) :
    crcBits poly (m + n) c = crcBits poly n (crcBits poly m c) := by
  induction m generalizing c with
  | zero => rw [Nat.zero_add]; rfl
  | succ m ih => rw [Nat.succ_add, crcBits, crcBits, ih]

/-- A value is its low byte and the rest. -/
theorem low_byte_xor_rest (x : BitVec w) : (x.extractLsb' 0 8).setWidth w ^^^ x >>> 8 <<< 8 = x := by
  apply BitVec.eq_of_getLsbD_eq
  intro i hi
  by_cases h8 : i < 8
  · simp [hi, h8]
  · simp [hi, h8, show 8 + (i - 8) = i by omega]

/-- Iterations over a value shifted up only shift it down again. -/
theorem crcBits_eight_rest (poly x : BitVec w) : crcBits poly 8 (x >>> 8 <<< 8) = x >>> 8 := by
  rw [crcBits_of_low_clear]
  · apply BitVec.eq_of_getLsbD_eq
    intro i hi
    by_cases h : 8 + i < w
    · simp [h]
    · simp [h, BitVec.getLsbD_of_ge x (8 + i) (by omega)]
  · intro i hi
    simp [hi]

/-- Eight iterations are the iterations of the low byte, over the rest shifted down: the idea of the table form and of the
residue. -/
theorem crcBits_eight_eq (poly x : BitVec w) :
    crcBits poly 8 x = crcBits poly 8 ((x.extractLsb' 0 8).setWidth w) ^^^ x >>> 8 := by
  rw [← crcBits_eight_rest poly x, ← crcBits_xor, low_byte_xor_rest]

/-- R53 (d), R65 (d): the table form. -/
theorem crcByte_eq_table (poly c : BitVec w) (b : Byte) :
    crcByte poly c b = c >>> 8 ^^^ crcByte poly 0#w ((c ^^^ b.setWidth w).extractLsb' 0 8) := by
  have hbyte : b.setWidth w >>> 8 = 0#w := by
    apply BitVec.eq_of_getLsbD_eq
    intro i _
    simp
  rw [crcByte, crcBits_eight_eq, BitVec.ushiftRight_xor_distrib, hbyte, BitVec.xor_zero, BitVec.xor_comm, crcByte,
    BitVec.zero_xor]

/-- With the highest bit of the constant set, one iteration shows in that bit whether the constant was taken in, and so can be
undone. -/
theorem crcBit_injective {poly : BitVec w} (hpoly : poly.getLsbD (w - 1) = true) : Function.Injective (crcBit poly) := by
  have hw : 0 < w := by
    by_contra h
    simp [show w = 0 by omega] at hpoly
  have hlow (x : BitVec w) : (crcBit poly x).getLsbD (w - 1) = x.getLsbD 0 := by
    have htop : (x >>> 1).getLsbD (w - 1) = false := by
      rw [BitVec.getLsbD_ushiftRight]
      exact BitVec.getLsbD_of_ge x _ (by omega)
    cases h : x.getLsbD 0 <;> simp [crcBit, h, htop, hpoly]
  intro x y e
  have hbit : x.getLsbD 0 = y.getLsbD 0 := by rw [← hlow x, e, hlow y]
  have hrest : x >>> 1 = y >>> 1 := by
    rw [crcBit, crcBit, hbit] at e
    split at e
    · exact BitVec.xor_left_inj poly |>.1 e
    · exact e
  apply BitVec.eq_of_getLsbD_eq
  intro i _
  cases i with
  | zero => exact hbit
  | succ i => simpa [Nat.add_comm] using congrArg (·.getLsbD i) hrest

theorem crcBits_injective {poly : BitVec w} (hpoly : poly.getLsbD (w - 1) = true) (n : Nat) :
    Function.Injective (crcBits poly n) := by
  induction n with
  | zero => exact Function.injective_id
  | succ n ih => exact ih.comp (crcBit_injective hpoly)

/-- R53 (e), R65 (e): two running values never merge when given the same byte. -/
theorem crcByte_injective {poly : BitVec w} (hpoly : poly.getLsbD (w - 1) = true) {b : Byte} {c₁ c₂ : BitVec w}
    (h : crcByte poly c₁ b = crcByte poly c₂ b) : c₁ = c₂ :=
  (BitVec.xor_left_inj _).1 (crcBits_injective hpoly 8 h)

/-- R69: the first byte of `LE` is the low one, the others are `LE` of the rest. -/
theorem le_succ (n : Nat) (v : BitVec w) : le (n + 1) v = v.extractLsb' 0 8 :: le n (v >>> 8) := by
  rw [le, List.range_succ_eq_map, List.map_cons, List.map_map, le]
  congr 1
  apply List.map_congr_left
  intro k _
  apply BitVec.eq_of_getLsbD_eq
  intro i hi
  simp [hi, show 8 * (k + 1) + i = 8 + (8 * k + i) by omega]

/-- The step over the bytes of a value that fits them, low byte first, is the iterations over the value. -/
theorem foldl_crcByte_le (poly : BitVec w) (n : Nat) (c v : BitVec w) (hv : v >>> (8 * n) = 0#w) :
    (le n v).foldl (crcByte poly) c = crcBits poly (8 * n) (c ^^^ v) := by
  induction n generalizing c v with
  | zero =>
    have h0 : v = 0#w := by simpa using hv
    simp [le, crcBits, h0]
  | succ n ih =>
    have hrest : v >>> 8 >>> (8 * n) = 0#w := by rw [← BitVec.shiftRight_add, Nat.add_comm, ← hv]; rfl
    have hbyte : crcByte poly c (v.extractLsb' 0 8) ^^^ v >>> 8 = crcBits poly 8 (c ^^^ v) := by
      rw [crcBits_xor, crcBits_eight_eq poly v, crcByte, crcBits_xor, BitVec.xor_assoc]
    rw [le_succ, List.foldl_cons, ih _ _ hrest, hbyte, Nat.mul_succ, Nat.add_comm, crcBits_add]

/-- R54, R66: over the bytes of its own complement every running value ends where all ones end. -/
theorem foldl_crcByte_le_not (n : Nat) (poly c : BitVec (8 * n)) :
    (le n (~~~c)).foldl (crcByte poly) c = crcBits poly (8 * n) (BitVec.allOnes (8 * n)) := by
  rw [foldl_crcByte_le poly n c _ (BitVec.ushiftRight_eq_zero (Nat.le_refl _)), ← BitVec.xor_allOnes,
    ← BitVec.xor_assoc, BitVec.xor_self, BitVec.zero_xor]

/-- R54: the residue of C16. -/
theorem run16_le_not (c : BitVec 16) : run16 c (le 2 (~~~c)) = 0xF0B8#16 := by
  rw [run16_eq_foldl]
  exact (foldl_crcByte_le_not 2 0x8408#16 c).trans (by decide +kernel)

/-- R66: the residue of C32. -/
theorem run32_le_not (c : BitVec 32) : run32 c (le 4 (~~~c)) = 0xDEBB20E3#32 := by
  rw [run32_eq_foldl]
  exact (foldl_crcByte_le_not 4 0xEDB88320#32 c).trans (by decide +kernel)

end Sys2Proof.Machine
end

section
/-! The statements of the family other: the checksum step. -/

namespace Sys2Proof.Machine

/-- Settles O23: the step's laws hold of every width and constant; injectivity needs the highest bit of the constant. -/
theorem step16IsLinearTabulatedAndInjective : Obligations.Step16IsLinearTabulatedAndInjective :=
  ⟨crcByte_xor 0x8408#16, crcByte_eq_zero_byte 0x8408#16, crcByte_eq_table 0x8408#16, ⟨by decide, by decide, by decide⟩,
    fun _ _ _ => crcByte_injective (poly := 0x8408#16) (by decide)⟩

/-- Settles O35: the step's laws hold of every width and constant; injectivity needs the highest bit of the constant. -/
theorem step32IsLinearTabulatedAndInjective : Obligations.Step32IsLinearTabulatedAndInjective :=
  ⟨crcByte_xor 0xEDB88320#32, crcByte_eq_zero_byte 0xEDB88320#32, crcByte_eq_table 0xEDB88320#32,
    ⟨by decide, by decide, by decide⟩, fun _ _ _ => crcByte_injective (poly := 0xEDB88320#32) (by decide)⟩

/-- Settles O24: the bytes of `LE` are the message of the first part, and a message's own final value is the complement of its
running value. -/
theorem residue16IsConstant : Obligations.Residue16IsConstant :=
  ⟨run16_le_not, fun s => (run16_append seed16 s _).trans (run16_le_not (run16 seed16 s))⟩

/-- Settles O36: the bytes of `LE` are the message of the first part, and a message's own final value is the complement of its
running value. -/
theorem residue32IsConstant : Obligations.Residue32IsConstant :=
  ⟨run32_le_not, fun s => (run32_append seed32 s _).trans (run32_le_not (run32 seed32 s))⟩

end Sys2Proof.Machine
end

section
/-! SUPPORT. Laws of the command sequences of R41, R55 and R67: the run of `C16INIT` or `C32INIT` and a message's bytes. -/

namespace Sys2Proof.Machine

/-- The run of the bytes of a message of C16 already begun, before other commands. -/
theorem runAll_send_c16upds {m : List Byte} {rest : List Instr} {s : State} {c : BitVec 16} (hf : s.flt = none)
    (hc : s.crc16 = some c) (hp : s.pending = send (m.map .c16upd ++ rest)) :
    runAll s = runAll { s with
      pending := send rest
      crc16 := some (run16 c m)
      responses := s.responses ++ m.map fun _ => .none } := by
  induction m generalizing s c with
  | nil => simp [run16, ← hc, ← show s.pending = send rest from hp]
  | cons b m ih =>
    have hfirst : Does (.c16upd b) { s with pending := send (m.map .c16upd ++ rest) } _ := .c16upd b c hf hc
    refine (hfirst.runAll_eq hp).trans ((ih ?_ rfl rfl).trans ?_)
    · exact hf
    · simp [State.respond, State.setCrc16, run16]

/-- The run of the bytes of a message of C32 already begun, before other commands. -/
theorem runAll_send_c32upds {m : List Byte} {rest : List Instr} {s : State} {c : BitVec 32} (hf : s.flt = none)
    (hc : s.crc32 = some c) (hp : s.pending = send (m.map .c32upd ++ rest)) :
    runAll s = runAll { s with
      pending := send rest
      crc32 := some (run32 c m)
      responses := s.responses ++ m.map fun _ => .none } := by
  induction m generalizing s c with
  | nil => simp [run32, ← hc, ← show s.pending = send rest from hp]
  | cons b m ih =>
    have hfirst : Does (.c32upd b) { s with pending := send (m.map .c32upd ++ rest) } _ := .c32upd b c hf hc
    refine (hfirst.runAll_eq hp).trans ((ih ?_ rfl rfl).trans ?_)
    · exact hf
    · simp [State.respond, State.setCrc32, run32]

/-- R22: the run of a whole message of C16, before other commands. -/
theorem runAll_send_message16 {m : List Byte} {rest : List Instr} {s : State} (hf : s.flt = none)
    (hp : s.pending = send (.c16init :: (m.map .c16upd ++ rest))) :
    runAll s = runAll { s with
      pending := send rest
      crc16 := some (run16 seed16 m)
      responses := s.responses ++ [.none] ++ m.map fun _ => .none } :=
  (Does.runAll_eq (.c16init hf) hp).trans (runAll_send_c16upds hf rfl rfl)

/-- R22: the run of a whole message of C32, before other commands. -/
theorem runAll_send_message32 {m : List Byte} {rest : List Instr} {s : State} (hf : s.flt = none)
    (hp : s.pending = send (.c32init :: (m.map .c32upd ++ rest))) :
    runAll s = runAll { s with
      pending := send rest
      crc32 := some (run32 seed32 m)
      responses := s.responses ++ [.none] ++ m.map fun _ => .none } :=
  (Does.runAll_eq (.c32init hf) hp).trans (runAll_send_c32upds hf rfl rfl)

/-- The run of one command. -/
theorem Does.runAll_last {i : Instr} {s t : State} (h : Does i { s with pending := [] } t) (hp : s.pending = send [i]) :
    runAll s = .next t :=
  (h.runAll_eq (is := []) hp).trans (runAll_nil h.pending_eq)

/-- R52, R55: the verdict is 1 exactly when the trailer read as a number is the complement of the running value. -/
theorem trailerVerdict_eq_one_iff (c : BitVec 16) (q0 q1 : Byte) :
    trailerVerdict c (trailer16 q0 q1) = 1#1 ↔ leVal [q0, q1] = (~~~c).toNat := by
  have hval : leVal [q0, q1] = (trailer16 q0 q1).toNat := (trailer16_toNat q0 q1).symm
  rw [hval, BitVec.toNat_inj, eq_comm (a := trailer16 q0 q1), trailerVerdict]
  split
  next h => exact iff_of_true rfl h
  next h => exact iff_of_false (by decide) h

end Sys2Proof.Machine
end

section
/-! The statements of the family other: the host's command sequences. -/

namespace Sys2Proof.Machine

/-- Settles O31: the message leaves its running value, of which `C16RD` answers the complement. -/
theorem c16AnswersTheFinalValueOfEveryMessage : Obligations.C16AnswersTheFinalValueOfEveryMessage := by
  intro s m hf hp
  rw [runAll_send_message16 (rest := [.c16rd]) hf hp]
  exact Does.runAll_last (.c16rd _ hf rfl) rfl

/-- Settles O32: the message leaves its running value, with which `C16CHK` compares the trailer. -/
theorem installCodeCheckAnswersItsValidity : Obligations.InstallCodeCheckAnswersItsValidity := by
  intro s payload q0 q1 hf hp
  have hverdict := trailerVerdict_eq_one_iff (run16 seed16 payload) q0 q1
  rw [runAll_send_message16 (rest := [.c16chk (trailer16 q0 q1)]) hf hp]
  refine ⟨_, _, Does.runAll_last (.c16chk _ _ hf rfl) rfl, hf, List.getLast?_concat, hverdict, fun hlen => ?_⟩
  exact hverdict.trans (and_iff_right hlen).symm

/-- Settles O42: the message leaves its running value, `C32RD` answers its complement, and the rest emits. -/
theorem recordSequenceEmitsTheChecksumBeforeTheMessage : Obligations.RecordSequenceEmitsTheChecksumBeforeTheMessage := by
  intro s m hf hp
  have hemits : ∀ i ∈ Instr.put32 (fin32 m) :: m.map .put8, Emits i :=
    List.forall_mem_cons.2 ⟨emits_put32 _, List.forall_mem_map.2 fun v _ => emits_put8 v⟩
  have hlist : s.pending = send (.c32init :: (m.map .c32upd ++ .c32rd :: .put32 (fin32 m) :: m.map .put8)) := by
    simpa [recordWithChecksum, checksum32] using hp
  refine (runAll_send_message32 hf hlist).trans ?_
  refine (Does.runAll_eq (.c32rd _ (by exact hf) rfl) rfl).trans ?_
  refine (runAll_send_emits (rest := []) (by exact hf) hemits (by rw [List.append_nil]; rfl)).trans ?_
  simp [runAll_nil, State.respond, emitted, fin32, send, List.flatMap_map, Function.comp_def]

end Sys2Proof.Machine
end

section
/-! SUPPORT. Laws of SER: `LE` against `LEval` (R78), and what the commands of a run append to `out` (R26, R78, R79). -/

namespace Sys2Proof.Machine

/-- R78: `LEval` of `LE` is the value, reduced to the bytes emitted. -/
theorem leVal_le {w : Nat} (n : Nat) (v : BitVec w) : leVal (le n v) = v.toNat % 2 ^ (8 * n) := by
  induction n generalizing v with
  | zero => simp [le, leVal, Nat.mod_one]
  | succ n ih =>
    rw [le_succ, leVal, ih, BitVec.extractLsb'_toNat, BitVec.toNat_ushiftRight, Nat.shiftRight_zero, Nat.shiftRight_eq_div_pow,
      Nat.mul_succ, Nat.add_comm (8 * n), Nat.pow_add, Nat.mod_mul]

theorem leVal_lt (s : List Byte) : leVal s < 2 ^ (8 * s.length) := by
  induction s with
  | nil => decide
  | cons b s ih =>
    have hb : b.toNat < 256 := b.isLt
    rw [leVal, List.length_cons, Nat.mul_succ, Nat.pow_add]
    omega

/-- R78: two byte strings of one length with the same number are the same. -/
theorem leVal_injective {s t : List Byte} (hlen : s.length = t.length) (h : leVal s = leVal t) : s = t := by
  induction s generalizing t with
  | nil => exact (List.eq_nil_of_length_eq_zero hlen.symm).symm
  | cons b s ih =>
    cases t with
    | nil => cases hlen
    | cons d t =>
      rw [leVal, leVal] at h
      have hb : b.toNat < 256 := b.isLt
      have hd : d.toNat < 256 := d.isLt
      rw [BitVec.eq_of_toNat_eq (show b.toNat = d.toNat by omega), ih (Nat.succ.inj hlen) (by omega)]

/-- R78: `LE` of `LEval` is the byte string. -/
theorem le_leVal (s : List Byte) : le s.length (BitVec.ofNat (8 * s.length) (leVal s)) = s := by
  apply leVal_injective (length_le _ _)
  rw [leVal_le, BitVec.toNat_ofNat, Nat.mod_mod, Nat.mod_eq_of_lt (leVal_lt s)]

/-- R78: a wide emission is the emission of the low part and then of the high part. -/
theorem le_add (m n : Nat) {w : Nat} (v : BitVec w) :
    le (m + n) v = le m (v.extractLsb' 0 (8 * m)) ++ le n (v.extractLsb' (8 * m) (8 * n)) := by
  rw [le, List.range_add, List.map_append, List.map_map]
  congr 1
  · refine List.map_congr_left fun k hk => ?_
    rw [List.mem_range] at hk
    exact (BitVec.extractLsb'_extractLsb'_of_le (by omega)).symm
  · refine List.map_congr_left fun k hk => BitVec.eq_of_getLsbD_eq fun i hi => ?_
    rw [List.mem_range] at hk
    simp [hi, show 8 * k + i < 8 * n by omega, show 8 * (m + k) + i = 8 * m + (8 * k + i) by omega]

/-- R26: the width of a command is the number of bytes it emits. -/
theorem length_emitted (i : Instr) : (emitted i).length = i.emitWidth := by
  cases i <;> simp [emitted, Instr.emitWidth]

/-- R21, R26: a run of commands that ends without a fault appends the bytes of each in order. -/
theorem out_eq_of_runAll_send {is : List Instr} {s t : State} (hp : s.pending = send is) (hr : runAll s = .next t)
    (ht : t.flt = none) : t.out = s.out ++ is.flatMap emitted := by
  induction is generalizing s with
  | nil =>
    rw [runAll_nil hp] at hr
    cases hr
    exact (List.append_nil _).symm
  | cons i is ih =>
    obtain ⟨u, hdo, hpu, hru⟩ := runAll_send_cons hp
    rw [hru] at hr
    rw [ih hpu hr, hdo.out_eq, if_pos (flt_eq_none_of_runAll_send hpu hr ht), List.flatMap_cons, List.append_assoc]

/-- R78: what the commands of a list emit has the length of their widths together. -/
theorem length_flatMap_emitted (is : List Instr) : (is.flatMap emitted).length = (is.map Instr.emitWidth).sum := by
  simp only [List.length_flatMap, length_emitted]

end Sys2Proof.Machine
end

section
/-! SUPPORT. Laws of operands as numbers: which numbers an operand of `n` bits stands for, unsigned and in two's complement
(R39, R70). -/

namespace Sys2Proof.Machine

variable {n : Nat} {x : Int} {v : BitVec n}

/-- R39: the unsigned range of a width is the range of the operand's values. -/
theorem unsigned_operand_iff : (0 ≤ x ∧ x < 2 ^ n) ∧ v = BitVec.ofInt n x ↔ x = v.toNat := by
  constructor
  · rintro ⟨⟨h0, hlt⟩, rfl⟩
    rw [BitVec.toNat_ofInt, Int.toNat_of_nonneg (Int.emod_nonneg _ (by positivity)), Nat.cast_pow, Nat.cast_ofNat,
      Int.emod_eq_of_lt h0 hlt]
  · rintro rfl
    exact ⟨⟨Int.natCast_nonneg _, by exact_mod_cast v.isLt⟩, by simp⟩

/-- R70: the number presented for an integer, which is the integer modulo `2^n`. -/
theorem toNat_ofInt_of_signed (hlo : -2 ^ n ≤ x) (hhi : x < 2 ^ n) :
    ((BitVec.ofInt n x).toNat : Int) = if 0 ≤ x then x else x + 2 ^ n := by
  rw [BitVec.toNat_ofInt, Int.toNat_of_nonneg (Int.emod_nonneg _ (by positivity)), Nat.cast_pow, Nat.cast_ofNat]
  split
  next h0 => exact Int.emod_eq_of_lt h0 hhi
  next h0 => rw [← Int.add_emod_right, Int.emod_eq_of_lt (by omega) (by omega)]

theorem two_pow_eq_double (hn : 0 < n) : (2 : Int) ^ n = 2 * 2 ^ (n - 1) := by
  rw [← pow_succ', Nat.sub_add_cancel hn]

/-- R39: the range of an integer operand is the range of the operand's unsigned and two's complement values. -/
theorem signed_operand_iff (hn : 0 < n) :
    (-2 ^ (n - 1) ≤ x ∧ x < 2 ^ n) ∧ v = BitVec.ofInt n x ↔ x = v.toNat ∨ x = v.toInt := by
  have hpow := two_pow_eq_double hn
  have hpos : (0 : Int) < 2 ^ (n - 1) := by positivity
  constructor
  · rintro ⟨⟨hlo, hhi⟩, hv⟩
    by_cases h0 : 0 ≤ x
    · exact .inl (unsigned_operand_iff.1 ⟨⟨h0, hhi⟩, hv⟩)
    · right
      rw [hv, BitVec.toInt_ofInt_eq_self hn hlo (by omega)]
  · rintro (h | rfl)
    · obtain ⟨⟨h0, hhi⟩, hv⟩ := unsigned_operand_iff.2 h
      exact ⟨⟨by omega, hhi⟩, hv⟩
    · have hhi := BitVec.toInt_lt (x := v)
      exact ⟨⟨BitVec.le_toInt v, by omega⟩, by simp⟩

section OneOperand
variable {c : Source} {op : BitVec n → Instr}
  (hc : assemble c = if c.wellFormed then some (op (BitVec.ofInt n x)) else none)
include hc

/-- A written command is assembled exactly to the operands that its number stands for. -/
theorem assemble_operand_iff {standsFor : BitVec n → Prop}
    (h : ∀ v, c.wellFormed = true ∧ v = BitVec.ofInt n x ↔ standsFor v) (i : Instr) :
    assemble c = some i ↔ ∃ v, i = op v ∧ standsFor v := by
  rw [hc, Option.ite_none_right_eq_some, Option.some.injEq]
  constructor
  · rintro ⟨hw, rfl⟩
    exact ⟨_, rfl, (h _).1 ⟨hw, rfl⟩⟩
  · rintro ⟨v, rfl, hv⟩
    obtain ⟨hw, rfl⟩ := (h v).2 hv
    exact ⟨hw, rfl⟩

theorem assemble_unsigned_iff (hw : c.wellFormed = true ↔ 0 ≤ x ∧ x < 2 ^ n) (i : Instr) :
    assemble c = some i ↔ ∃ v, i = op v ∧ x = v.toNat :=
  assemble_operand_iff hc (fun _ => (and_congr_left' hw).trans unsigned_operand_iff) i

theorem assemble_signed_iff (hn : 0 < n) (hw : c.wellFormed = true ↔ -2 ^ (n - 1) ≤ x ∧ x < 2 ^ n) (i : Instr) :
    assemble c = some i ↔ ∃ v, i = op v ∧ (x = v.toNat ∨ x = v.toInt) :=
  assemble_operand_iff hc (fun _ => (and_congr_left' hw).trans (signed_operand_iff hn)) i

end OneOperand

end Sys2Proof.Machine
end

section
/-! The statements of the family other: the serializer and the assembler. -/

namespace Sys2Proof.Machine

/-- Settles O45: `LEval` of `LE`, its injectivity, `LE` of a value in two parts, and the bytes a run appends. -/
theorem leIsABijectionAndWideIsNarrow : Obligations.LeIsABijectionAndWideIsNarrow := by
  refine ⟨fun n v => ?_, le_leVal, le_add 1 1, le_add 2 2, fun is s t _ _ hp hr ht => ?run⟩
  · rw [leVal_le, Nat.mod_eq_of_lt v.isLt]
  case run =>
    rw [out_eq_of_runAll_send hp hr ht, List.length_append, length_flatMap_emitted]
    exact ⟨rfl, List.prefix_append _ _⟩

/-- Settles O50: the frame of a SER command, and its bytes at the end of `out`. -/
theorem serStoresOnlyAtTheEndOfTheStream : Obligations.SerStoresOnlyAtTheEndOfTheStream := by
  intro i s t hu e
  have hdo := does_of_exec e
  refine ⟨hdo.crc16_eq_of_unit_ne (by simp [hu]), hdo.crc32_eq_of_unit_ne (by simp [hu]), hdo.pending_eq, fun a ha => ?below,
    fun ht => ⟨fun k hk => ?stored, fun a ha => ?past⟩, fun ht => ?faulted⟩
  case below => rw [State.outByte, hdo.out_eq, List.getElem?_append_left ha, State.outByte]
  case stored =>
    rw [← length_emitted] at hk
    rw [State.outByte, hdo.out_eq, if_pos ht, List.getElem?_append_right (Nat.le_add_right _ _), Nat.add_sub_cancel_left]
    exact ⟨rfl, by simp [hk]⟩
  case past =>
    rw [State.outByte, hdo.out_eq, if_pos ht, List.getElem?_eq_none]
    rw [List.length_append, length_emitted]
    exact ha
  case faulted => rw [hdo.out_eq, if_neg ht, List.append_nil]

/-- Settles O54: the presented number is the integer modulo `2^(8n)`. -/
theorem signedIntegersArePresentedInTwosComplement : Obligations.SignedIntegersArePresentedInTwosComplement := by
  refine ⟨fun n x hn ⟨hlo, hhi⟩ => ?_, by decide, by decide, by decide, by decide, by decide⟩
  have hn : 0 < 8 * n := by
    by_contra h
    simp [show n = 0 by omega] at hn
  have hpow := two_pow_eq_double hn
  have hpos : (0 : Int) < 2 ^ (8 * n - 1) := by positivity
  exact toNat_ofInt_of_signed (by omega) (by omega)

/-- Settles O55: the range of each operand is the range of the numbers that stand for it. -/
theorem assemblerAcceptsExactlyTheOperandRanges : Obligations.AssemblerAcceptsExactlyTheOperandRanges := by
  refine ⟨fun x => assemble_unsigned_iff (op := .c16upd) rfl ?_, fun x => assemble_unsigned_iff (op := .c32upd) rfl ?_,
    fun x => assemble_unsigned_iff (op := .c16chk) rfl ?_, fun x => assemble_unsigned_iff (op := .putc) rfl ?_,
    fun x => assemble_signed_iff (op := .put8) rfl (by decide) ?_,
    fun x => assemble_signed_iff (op := .put16) rfl (by decide) ?_,
    fun x => assemble_signed_iff (op := .put32) rfl (by decide) ?_⟩ <;>
    simp [Source.wellFormed] <;> omega

end Sys2Proof.Machine
end
